-- ==== Sys2Proof/Word.lean ====
section
/-! DEFINITION. The value types of A5-CORE: the 16-bit word and the narrower vectors that occur beside it (40_bitvector.md R70). -/

namespace Sys2Proof

/-- A register, a memory cell, `IR`, `pc` or an instruction: 16 bits (R3 `WORD`, R14 `PCW`). -/
abbrev Word := BitVec 16

/-- A character code of the output sink: 8 bits (R22). -/
abbrev Code := BitVec 8

/-- The condition-code vector `N Z P`, N the most significant bit: 3 bits (R18). -/
abbrev CondCode := BitVec 3

/-- The index of a general register, 0 to 7 (R11, R53). -/
abbrev RegIdx := Fin 8

end Sys2Proof
end

