-- ==== Sys2Proof/Machine/BitVector.lean ====
section
/-! DEFINITION. The bit-vector primitive, the leaf component of A5-CORE (40_bitvector.md R70 to R89). An operation that
the spec lets fail answers `none` outside its domain (R89, D16, notes/assumptions/11.md); the machine only calls the
operations inside their domain (R179), through the total forms at the end of this file. A vector has width 1 or more, and
width 0 is no vector (R70, D16): every operation asks `NeZero` of the width of a vector it takes, so that none of them
can be applied at width 0, and one that is given a width has no result for 0. -/

namespace Sys2Proof.Machine.BitVector

/-- The bits `b_0 b_1 ...` of a pattern, most significant first (R70); no operation of the primitive. -/
def bits {w : Nat} (v : BitVec w) : List Bool :=
  (List.range w).map v.getMsbD

/-- The value of a sequence of binary digits read after `acc`; `none` for any other character. -/
def digits (acc : Nat) : List Char → Option Nat
  | [] => some acc
  | c :: cs =>
    if c = '0' then digits (2 * acc) cs
    else if c = '1' then digits (2 * acc + 1) cs
    else none

/-- `fromLiteral`: the first character is the most significant bit; fails on a wrong length or another character (R72). -/
def fromLiteral (w : Nat) (cs : List Char) : Option (BitVec w) :=
  if 1 ≤ w ∧ cs.length = w then (digits 0 cs).map (BitVec.ofNat w) else none

/-- `unsignedValue`, written `u(V)` (R73). -/
def unsignedValue {w : Nat} [NeZero w] (v : BitVec w) : Nat := v.toNat

/-- `setUnsignedValue`: fails where `n` does not fit, never truncates (R74). -/
def setUnsignedValue (w : Nat) (n : Int) : Option (BitVec w) :=
  if 1 ≤ w ∧ 0 ≤ n ∧ n < 2 ^ w then some (BitVec.ofNat w n.toNat) else none

/-- `signedValue`, written `s(V)` (R75). -/
def signedValue {w : Nat} [NeZero w] (v : BitVec w) : Int := v.toInt

/-- `setSignedValue`: any integer, truncated modulo `2^w`; never fails at a width a vector can have (R76). -/
def setSignedValue (w : Nat) [NeZero w] (n : Int) : BitVec w := BitVec.ofInt w n

/-- `slice(start, length)`, MSB-first positions; fails outside `0 ≤ start`, `1 ≤ length`, `start + length ≤ w` (R77). -/
def slice {w : Nat} [NeZero w] (v : BitVec w) (start length : Int) : Option (BitVec length.toNat) :=
  if 0 ≤ start ∧ 1 ≤ length ∧ start + length ≤ w then
    some (v.extractLsb' (w - start.toNat - length.toNat) length.toNat)
  else none

/-- `invert`, written `not_w(V)` (R78). -/
def invert {w : Nat} [NeZero w] (v : BitVec w) : BitVec w := ~~~v

/-- `copy`: vectors are values, so the duplicate is the value itself (R79). -/
def copy {w : Nat} [NeZero w] (v : BitVec w) : BitVec w := v

/-- Structural equality: same width and same pattern (R80). -/
def equal {j k : Nat} [NeZero j] [NeZero k] (a : BitVec j) (b : BitVec k) : Bool := bits a == bits b

/-- `signExtend`: replicates the field's sign bit; fails to a narrower width (R81). -/
def signExtend {k : Nat} [NeZero k] (w : Nat) (f : BitVec k) : Option (BitVec w) :=
  if k ≤ w then some (f.signExtend w) else none

/-- `add_w`: the signed sum through the truncating encoder (R82). -/
def add {w : Nat} [NeZero w] (a b : BitVec w) : BitVec w :=
  setSignedValue w (signedValue a + signedValue b)

/-- `and_w`: bitwise AND (R83). -/
def and {w : Nat} [NeZero w] (a b : BitVec w) : BitVec w := a &&& b

/-- `zext_w`: zero extension; fails to a narrower width (R84). -/
def zeroExtend {k : Nat} [NeZero k] (w : Nat) (f : BitVec k) : Option (BitVec w) :=
  if k ≤ w then some (f.setWidth w) else none

/-- Concatenation, `A ++ B`, A in the more significant positions (R85). -/
def concat {j k : Nat} [NeZero j] [NeZero k] (a : BitVec j) (b : BitVec k) : BitVec (j + k) := a ++ b

/-- The bits of consecutive slices of `v` of the given lengths, from position `start` on; fails where one slice does
(the tilings of R87). -/
def tile {w : Nat} [NeZero w] (v : BitVec w) (start : Nat) : List Nat → Option (List Bool)
  | [] => some []
  | n :: ns => do
    let piece ← slice v start n
    let others ← tile v (start + n) ns
    pure (bits piece ++ others)

/-! ## The total forms the engine calls (R179) -/

/-- The field `V[lo + len - 1 : lo]` of a word in LSB-0 positions (R6). -/
def field (v : Word) (lo len : Nat) [NeZero len] : BitVec len := v.extractLsb' lo len

/-- `sext_16` of a field (R81): imm5 and pcoffset9 (R54). -/
def sext16 {k : Nat} [NeZero k] (f : BitVec k) : Word := f.signExtend 16

/-- `add16` (R82). -/
def add16 (a b : Word) : Word := add a b

/-- `and16` (R83). -/
def and16 (a b : Word) : Word := and a b

/-- `not16` (R78). -/
def not16 (a : Word) : Word := invert a

/-- A 3-bit field as a register index (R53). -/
def regIndex (f : BitVec 3) : RegIdx := ⟨f.toNat, f.isLt⟩

/-- A register index as the 3-bit field that selects it (R53). -/
def regField (r : RegIdx) : BitVec 3 := BitVec.ofNat 3 r.val

/-- "the low 8 bits" of a word, `V[7:0]` (R84). -/
def lowByte (v : Word) : Code := field v 0 8

end Sys2Proof.Machine.BitVector
end

