-- ==== Sys2Proof/Syntax.lean ====
section
/-! DEFINITION. The instructions of A5-CORE: one constructor per row of spec/opcode_table.json (30_encoding.md R57, R61). -/

namespace Sys2Proof

/-- A decoded instruction. The bits no rule reads (R58) are no operand. -/
inductive Instr where
  /-- BR, format B: the flags n, z, p and the signed word offset (R120). -/
  | br (n z p : Bool) (off9 : BitVec 9)
  /-- ADD, register mode, format R (R132). -/
  | addReg (dr sr1 sr2 : RegIdx)
  /-- ADD, immediate mode, format I (R133). -/
  | addImm (dr sr1 : RegIdx) (imm5 : BitVec 5)
  /-- LD, format M (R150). -/
  | ld (dr : RegIdx) (off9 : BitVec 9)
  /-- ST, format M (R151). -/
  | st (sr : RegIdx) (off9 : BitVec 9)
  /-- AND, register mode, format R (R134). -/
  | andReg (dr sr1 sr2 : RegIdx)
  /-- AND, immediate mode, format I (R135). -/
  | andImm (dr sr1 : RegIdx) (imm5 : BitVec 5)
  /-- NOT, format N (R136). -/
  | not (dr sr : RegIdx)
  /-- TRAP x21, OUT (R161). -/
  | trapOut
  /-- TRAP x25, HALT (R162). -/
  | trapHalt
  /-- TRAP with any vector but x21 and x25 (R163). -/
  | trapOther (vect8 : BitVec 8)
  /-- A word of the illegal opcode 4 (R59, R173). -/
  | illegal4
  /-- A word of the illegal opcode 6 (R59, R173). -/
  | illegal6
  /-- A word of the illegal opcode 7 (R59, R173). -/
  | illegal7
  /-- A word of the illegal opcode 8 (R59, R173). -/
  | illegal8
  /-- A word of the illegal opcode 10 (R59, R173). -/
  | illegal10
  /-- A word of the illegal opcode 11 (R59, R173). -/
  | illegal11
  /-- A word of the illegal opcode 12 (R59, R173). -/
  | illegal12
  /-- A word of the illegal opcode 13 (R59, R173). -/
  | illegal13
  /-- A word of the illegal opcode 14 (R59, R173). -/
  | illegal14
  deriving DecidableEq, Repr

/-- The 4-bit opcode of an instruction (R57). -/
def Instr.opcode : Instr → BitVec 4
  | .br .. => 0
  | .addReg .. => 1
  | .addImm .. => 1
  | .ld .. => 2
  | .st .. => 3
  | .andReg .. => 5
  | .andImm .. => 5
  | .not .. => 9
  | .trapOut => 15
  | .trapHalt => 15
  | .trapOther _ => 15
  | .illegal4 => 4
  | .illegal6 => 6
  | .illegal7 => 7
  | .illegal8 => 8
  | .illegal10 => 10
  | .illegal11 => 11
  | .illegal12 => 12
  | .illegal13 => 13
  | .illegal14 => 14

/-- The instruction's row of spec/opcode_table.json, by its mnemonic. -/
def Instr.mnemonic : Instr → String
  | .br .. => "BR"
  | .addReg .. => "ADD_REG"
  | .addImm .. => "ADD_IMM"
  | .ld .. => "LD"
  | .st .. => "ST"
  | .andReg .. => "AND_REG"
  | .andImm .. => "AND_IMM"
  | .not .. => "NOT"
  | .trapOut => "TRAP_OUT"
  | .trapHalt => "TRAP_HALT"
  | .trapOther _ => "TRAP_OTHER"
  | .illegal4 => "ILLEGAL_4"
  | .illegal6 => "ILLEGAL_6"
  | .illegal7 => "ILLEGAL_7"
  | .illegal8 => "ILLEGAL_8"
  | .illegal10 => "ILLEGAL_10"
  | .illegal11 => "ILLEGAL_11"
  | .illegal12 => "ILLEGAL_12"
  | .illegal13 => "ILLEGAL_13"
  | .illegal14 => "ILLEGAL_14"

end Sys2Proof
end

