-- ==== Sys2Proof/WellFormed.lean ====
section
/-! DEFINITION. Which terms of `Instr` are instructions of the machine. Operand widths are in the types; the one check
left is that `trapOther` carries none of the two vectors that have rows of their own (30_encoding.md R57, 45_trap.md R163). -/

namespace Sys2Proof

/-- The vectors of TRAP that select a service (R161, R162). -/
def serviceVectors : List (BitVec 8) := [0x21#8, 0x25#8]

/-- A well-formed instruction: TRAP_OTHER is not OUT and not HALT. -/
def Instr.wf : Instr → Bool
  | .trapOther vect8 => !serviceVectors.contains vect8
  | .br .. => true
  | .addReg .. => true
  | .addImm .. => true
  | .ld .. => true
  | .st .. => true
  | .andReg .. => true
  | .andImm .. => true
  | .not .. => true
  | .trapOut => true
  | .trapHalt => true
  | .illegal4 => true
  | .illegal6 => true
  | .illegal7 => true
  | .illegal8 => true
  | .illegal10 => true
  | .illegal11 => true
  | .illegal12 => true
  | .illegal13 => true
  | .illegal14 => true

end Sys2Proof
end

