-- ==== Sys2Proof/Decode.lean ====
section
/-! DEFINITION. The decoder, the encoder and the opcode table (30_encoding.md R50 to R61). Every word has a meaning
(R59, R61), so the decoder has nothing to reject: the nine illegal opcodes decode, by name, to constructors of their own. -/

namespace Sys2Proof

open Sys2Proof.Machine.BitVector (field regIndex regField)

/-- The opcode field `IR[15:12]` read as a number (R51). -/
def opcodeOf (w : Word) : Fin 16 := ⟨(field w 12 4).toNat, (field w 12 4).isLt⟩

/-- The service the vector of TRAP selects (R160). -/
def decodeTrap (vect8 : BitVec 8) : Instr :=
  if vect8 = 0x21#8 then .trapOut
  else if vect8 = 0x25#8 then .trapHalt
  else .trapOther vect8

/-- Decode: a total function of the word, by opcode and, for ADD and AND, the mode bit `IR[5]` (R61, R55). -/
def decode (w : Word) : Instr :=
  match opcodeOf w with
  | 0 => .br w[11] w[10] w[9] (field w 0 9)
  | 1 =>
    if w[5] then .addImm (regIndex (field w 9 3)) (regIndex (field w 6 3)) (field w 0 5)
    else .addReg (regIndex (field w 9 3)) (regIndex (field w 6 3)) (regIndex (field w 0 3))
  | 2 => .ld (regIndex (field w 9 3)) (field w 0 9)
  | 3 => .st (regIndex (field w 9 3)) (field w 0 9)
  | 4 => .illegal4
  | 5 =>
    if w[5] then .andImm (regIndex (field w 9 3)) (regIndex (field w 6 3)) (field w 0 5)
    else .andReg (regIndex (field w 9 3)) (regIndex (field w 6 3)) (regIndex (field w 0 3))
  | 6 => .illegal6
  | 7 => .illegal7
  | 8 => .illegal8
  | 9 => .not (regIndex (field w 9 3)) (regIndex (field w 6 3))
  | 10 => .illegal10
  | 11 => .illegal11
  | 12 => .illegal12
  | 13 => .illegal13
  | 14 => .illegal14
  | 15 => decodeTrap (field w 0 8)
  | ⟨n + 16, h⟩ => absurd h (by omega)

/-- The word of an instruction, field by field from the most significant bit (R52); bits no rule reads take the
canonical fill of R58, those of an illegal word are zero (notes/assumptions/8.md). -/
def encode : Instr → Word
  | .br n z p off9 => 0b0000#4 ++ BitVec.ofBool n ++ BitVec.ofBool z ++ BitVec.ofBool p ++ off9
  | .addReg dr sr1 sr2 => 0b0001#4 ++ regField dr ++ regField sr1 ++ 0b0#1 ++ 0b00#2 ++ regField sr2
  | .addImm dr sr1 imm5 => 0b0001#4 ++ regField dr ++ regField sr1 ++ 0b1#1 ++ imm5
  | .ld dr off9 => 0b0010#4 ++ regField dr ++ off9
  | .st sr off9 => 0b0011#4 ++ regField sr ++ off9
  | .andReg dr sr1 sr2 => 0b0101#4 ++ regField dr ++ regField sr1 ++ 0b0#1 ++ 0b00#2 ++ regField sr2
  | .andImm dr sr1 imm5 => 0b0101#4 ++ regField dr ++ regField sr1 ++ 0b1#1 ++ imm5
  | .not dr sr => 0b1001#4 ++ regField dr ++ regField sr ++ 0b111111#6
  | .trapOut => 0b1111#4 ++ 0b0000#4 ++ 0x21#8
  | .trapHalt => 0b1111#4 ++ 0b0000#4 ++ 0x25#8
  | .trapOther vect8 => 0b1111#4 ++ 0b0000#4 ++ vect8
  | .illegal4 => 0b0100#4 ++ 0#12
  | .illegal6 => 0b0110#4 ++ 0#12
  | .illegal7 => 0b0111#4 ++ 0#12
  | .illegal8 => 0b1000#4 ++ 0#12
  | .illegal10 => 0b1010#4 ++ 0#12
  | .illegal11 => 0b1011#4 ++ 0#12
  | .illegal12 => 0b1100#4 ++ 0#12
  | .illegal13 => 0b1101#4 ++ 0#12
  | .illegal14 => 0b1110#4 ++ 0#12

/-- The bits of a word that some rule reads, by the instruction it decodes to; the others are ignored (R58, R59). -/
def Instr.readMask : Instr → Word
  | .br .. => 0xFFFF#16
  | .addReg .. => 0xFFE7#16
  | .addImm .. => 0xFFFF#16
  | .ld .. => 0xFFFF#16
  | .st .. => 0xFFFF#16
  | .andReg .. => 0xFFE7#16
  | .andImm .. => 0xFFFF#16
  | .not .. => 0xFFC0#16
  | .trapOut => 0xF0FF#16
  | .trapHalt => 0xF0FF#16
  | .trapOther _ => 0xF0FF#16
  | .illegal4 => 0xF000#16
  | .illegal6 => 0xF000#16
  | .illegal7 => 0xF000#16
  | .illegal8 => 0xF000#16
  | .illegal10 => 0xF000#16
  | .illegal11 => 0xF000#16
  | .illegal12 => 0xF000#16
  | .illegal13 => 0xF000#16
  | .illegal14 => 0xF000#16

/-- A row of spec/opcode_table.json: `w` is the row's when `w &&& mask = pattern`. -/
structure Row where
  mnemonic : String
  mask : Word
  pattern : Word
  deriving DecidableEq, Repr

/-- The rows of spec/opcode_table.json, the two TRAP rows with the more specific mask before TRAP_OTHER (R57). -/
def opcodeTable : List Row :=
  [⟨"BR", 0xF000, 0x0000⟩, ⟨"ADD_REG", 0xF020, 0x1000⟩, ⟨"ADD_IMM", 0xF020, 0x1020⟩,
   ⟨"LD", 0xF000, 0x2000⟩, ⟨"ST", 0xF000, 0x3000⟩, ⟨"AND_REG", 0xF020, 0x5000⟩,
   ⟨"AND_IMM", 0xF020, 0x5020⟩, ⟨"NOT", 0xF000, 0x9000⟩, ⟨"TRAP_OUT", 0xF0FF, 0xF021⟩,
   ⟨"TRAP_HALT", 0xF0FF, 0xF025⟩] ++
  [⟨"TRAP_OTHER", 0xF000, 0xF000⟩, ⟨"ILLEGAL_4", 0xF000, 0x4000⟩, ⟨"ILLEGAL_6", 0xF000, 0x6000⟩,
   ⟨"ILLEGAL_7", 0xF000, 0x7000⟩, ⟨"ILLEGAL_8", 0xF000, 0x8000⟩, ⟨"ILLEGAL_10", 0xF000, 0xA000⟩,
   ⟨"ILLEGAL_11", 0xF000, 0xB000⟩, ⟨"ILLEGAL_12", 0xF000, 0xC000⟩, ⟨"ILLEGAL_13", 0xF000, 0xD000⟩,
   ⟨"ILLEGAL_14", 0xF000, 0xE000⟩]

/-- The mnemonic of the first row of the table that a word fits (R57). -/
def tableLookup (w : Word) : Option String :=
  (opcodeTable.find? fun row => w &&& row.mask == row.pattern).map Row.mnemonic

/-- The word an instruction's low `nbits` bits `w` stand for, the bits above them zero; every instruction is one
16-bit word (R50). -/
def wordOf (nbits w : Nat) : Word := BitVec.ofNat 16 (w % 2 ^ nbits)

/-- The instruction the decoder reads from bits numbered as spec/opcode_table.json numbers them; `none` for more bits
than an instruction has (R50). -/
def decodeTableWord (nbits w : Nat) : Option Instr :=
  if nbits ≤ 16 then some (decode (wordOf nbits w)) else none

end Sys2Proof
end

