-- ==== Sys2Proof/Config.lean ====
section
/-! DEFINITION. The parameters of A5-CORE: the fixed ones of 00_scope.md R3 and the defaults of R4. -/

namespace Sys2Proof.Config

/-- Number of memory cells; the valid addresses are 0 to 49 (R3 `MEMSIZE`). -/
def memSize : Nat := 50

/-- Largest number of words one program load accepts (R3 `LOADMAX`, R194). -/
def loadMax : Nat := 49

/-- `CC_RESET`, the value of `CC` before the first definer: the spec's default `000` (R4, R20, D2).
DESIGN CHOICE, unsafe: notes/assumptions/2.md. `State.constructed` takes it as an argument. -/
def ccReset : CondCode := 0b000#3

/-- `IR_RESET`, the value of `IR` before the first fetch (R4, R17, D4). DESIGN CHOICE, unsafe: notes/assumptions/3.md. -/
def irReset : Word := 0x0000#16

/-- `MEM_RESET`, what a cell holds that neither the loader nor a store has written: the spec's default
`0x0000` at every address (R4, R23, D3). DESIGN CHOICE, unsafe: notes/assumptions/4.md. `State.constructed` takes
it as an argument. -/
def memReset (_address : Nat) : Word := 0x0000#16

end Sys2Proof.Config
end

