-- ==== Sys2Proof/Machine/State.lean ====
section
/-! DEFINITION. The architectural state of A5-CORE, the ways a run ends, and the state after reset (10_state.md R10). -/

namespace Sys2Proof.Machine

/-- One listed memory cell: a word address and the 16-bit word it holds. The addressable unit is the word and no byte
view may be introduced (R30, R33; notes/assumptions/5.md). -/
abbrev Cell := Nat × Word

/-- The memory array `M`, as the list of the cells that differ from what an unlisted address reads as (R23). -/
abbrev Memory := List Cell

/-- Who made a memory access that an AddressError reports (R31, R172). -/
inductive Site where
  /-- The fetch step. -/
  | fetch
  /-- The effective address of a LD. -/
  | ld
  /-- The effective address of a ST. -/
  | st
  deriving DecidableEq, Repr

/-- Why a program load failed (R171, D11). -/
inductive LoadReason where
  /-- No string at all. -/
  | empty
  /-- More strings than one load accepts, and how many. -/
  | tooLong (count : Nat)
  /-- The first offending string, by its index. -/
  | badWord (index : Nat)
  deriving DecidableEq, Repr

/-- The closed list of errors (R170, R174). -/
inductive Error where
  /-- Raised by the load, before a run (R171). -/
  | loadError (reason : LoadReason)
  /-- A memory access outside 0..49: who made it, and the 16-bit address (R172). -/
  | addressError (site : Site) (addr : Word)
  /-- A word of an illegal opcode was fetched: the opcode and the already advanced `pc` (R173). -/
  | illegalOpcode (op : BitVec 4) (pcv : Word)
  deriving DecidableEq, Repr

/-- `RUN` (R21, R100). -/
inductive RunState where
  /-- The initial value: the engine performs cycles. -/
  | running
  /-- Entered by TRAP x25; terminal. -/
  | halted
  /-- Entered by a fatal error; terminal. -/
  | aborted (e : Error)
  deriving DecidableEq, Repr

/-- The seven pieces of state of A5-CORE (R10). -/
structure State where
  /-- `x[0]` to `x[7]` (R11). -/
  x : Vector Word 8
  /-- The program counter, a word address (R14, R16). -/
  pc : Word
  /-- The instruction register `IR` (R17). -/
  ir : Word
  /-- The condition codes `CC`, N Z P (R18). -/
  cc : CondCode
  /-- The memory array `M` (R23). -/
  mem : Memory
  /-- The run state `RUN` (R21). -/
  run : RunState
  /-- The output sink `OUT`, oldest code first (R22). -/
  out : List Code
  deriving DecidableEq, Repr

/-- The faults of a step: none. Every error of this machine is a value of its own `RUN` state (R175, R176), so a step
that meets one answers a next state; nothing raises a fault, which is safe (notes/assumptions/6.md). -/
inductive Fault where
  deriving DecidableEq, Repr

/-- The refusals of a step. -/
inductive Refusal where
  /-- Raised by `exec`'s arm of an instruction that has no meaning yet, and by nothing else; safe. No arm of this
  model raises it. -/
  | notModelled (mnemonic : String)
  deriving DecidableEq, Repr

/-- The state after construction (R191): `x[i] = i`, `pc = 0`, running and no output by the spec; `IR`, `CC` and the
memory at the spec's defaults (notes/assumptions/2.md to 4.md). -/
def State.reset : State where
  x := #v[0x0000#16, 0x0001#16, 0x0002#16, 0x0003#16, 0x0004#16, 0x0005#16, 0x0006#16, 0x0007#16]
  pc := 0x0000#16
  ir := Config.irReset
  cc := Config.ccReset
  mem := []
  run := .running
  out := []

end Sys2Proof.Machine
end

