-- ==== Sys2Proof/Machine/Ops.lean ====
section
/-! DEFINITION. The named operations over registers, memory and the run state: every read and write of a piece of
state goes through one of them. -/

namespace Sys2Proof.Machine

/-! ## Memory as a list in canonical form -/

/-- What an address that no entry lists reads as (R23, notes/assumptions/4.md). -/
def Memory.unlisted (a : Nat) : Word := Config.memReset a

/-- The word at address `a` (R31). -/
def Memory.read (m : Memory) (a : Nat) : Word :=
  (m.lookup a).getD (Memory.unlisted a)

/-- The memory without the entries of address `a`. -/
def Memory.erase (m : Memory) (a : Nat) : Memory :=
  m.filter fun c => c.1 != a

/-- Lists `v` at address `a`, before the first larger address. -/
def Memory.insert (a : Nat) (v : Word) : Memory → Memory
  | [] => [(a, v)]
  | c :: m => if a < c.1 then (a, v) :: c :: m else c :: Memory.insert a v m

/-- All 16 bits of `v` to address `a`; no other cell changes (R31). Writing what an unlisted address reads as leaves
the address unlisted. -/
def Memory.write (m : Memory) (a : Nat) (v : Word) : Memory :=
  if v = Memory.unlisted a then m.erase a else Memory.insert a v (m.erase a)

/-- The canonical form: addresses strictly rising, each one of the 50 cells (R30), no entry equal to what an unlisted
address reads as. -/
abbrev Memory.wf (m : Memory) : Prop :=
  m.Pairwise (fun c d => c.1 < d.1) ∧ ∀ c ∈ m, c.1 < Config.memSize ∧ c.2 ≠ Memory.unlisted c.1

/-! ## Registers and the other state -/

/-- `x[i]` (R11). No register is hard-wired or banked. -/
def State.reg (s : State) (i : RegIdx) : Word := s.x[i.val]

/-- `x[i] <- v`, all 16 bits (R11). -/
def State.setReg (s : State) (i : RegIdx) (v : Word) : State := { s with x := s.x.set i.val v }

/-- `pc <- target` (R14). -/
def State.setPc (s : State) (target : Word) : State := { s with pc := target }

/-- `IR <- w`, by the fetch step alone (R17). -/
def State.setIr (s : State) (w : Word) : State := { s with ir := w }

/-- The only write of `CC` in the model, used by `setcc` alone (R19). -/
def State.setCc (s : State) (c : CondCode) : State := { s with cc := c }

/-- Replaces the memory array. -/
def State.setMem (s : State) (m : Memory) : State := { s with mem := m }

/-- `RUN <- r` (R21). -/
def State.setRun (s : State) (r : RunState) : State := { s with run := r }

/-- `emit(c)`: appends one code to `OUT` (R22). -/
def State.emit (s : State) (c : Code) : State := { s with out := s.out ++ [c] }

/-! ## The two memory primitives and the end of a run -/

/-- `MemRead(a, 1)`: the bound is checked first; the site is the caller's (R31). -/
def memRead (site : Site) (a : Word) (s : State) : Except Error Word :=
  if a.toNat < Config.memSize then .ok (s.mem.read a.toNat) else .error (.addressError site a)

/-- `MemWrite(a, 1, v)`: the bound is checked first; out of range writes nothing (R31). -/
def memWrite (site : Site) (a v : Word) (s : State) : Except Error State :=
  if a.toNat < Config.memSize then .ok (s.setMem (s.mem.write a.toNat v)) else .error (.addressError site a)

/-- `raise e`: taking a fatal error. It ends the run and changes nothing else: no pc or status is saved, no handler
runs, no mode changes (R175). There is no return from it (R178), so no operation stands beside it for one. -/
def raise (e : Error) (s : State) : State := s.setRun (.aborted e)

/-- Step 1 of a cycle: `IR <- MemRead(pc, 1)` (R102). -/
def fetch (s : State) : Except Error State :=
  match memRead .fetch s.pc s with
  | .ok w => .ok (s.setIr w)
  | .error e => .error e

/-- Step 2 of a cycle: `pc <- pc + 1` (R103). -/
def advance (s : State) : State := s.setPc (s.pc + 1)

end Sys2Proof.Machine
end

