-- ==== Sys2Proof/Machine/Flags.lean ====
section
/-! DEFINITION. The condition codes: the one routine that writes them and the one test that reads them
(43_operate.md R130, 42_control.md R120). -/

namespace Sys2Proof.Machine

/-- The pattern of a signed result: `100` negative, `010` zero, `001` positive (R18, R130). -/
def ccOf (v : Int) : CondCode :=
  if v < 0 then 0b100#3 else if v = 0 then 0b010#3 else 0b001#3

/-- `setcc(v)`, the only place `CC` is written (R130, R19). -/
def setcc (v : Int) (s : State) : State := s.setCc (ccOf v)

/-- Whether a BR with the flags n, z, p is taken: some flag whose condition code is set (R120, R56). -/
def branchTaken (n z p : Bool) (cc : CondCode) : Bool :=
  (n && cc[2]) || (z && cc[1]) || (p && cc[0])

end Sys2Proof.Machine
end

