-- ==== Sys2Proof/Machine/Operands.lean ====
section
/-! DEFINITION. The operand forms: register and immediate second operands, and the PC-relative address shared by BR, LD
and ST (43_operate.md R131, 20_memory.md R43). -/

namespace Sys2Proof.Machine

open Sys2Proof.Machine.BitVector (sext16 add16)

/-- The second operand of ADD and AND, as the mode bit selects it (R55). -/
inductive Operand2 where
  /-- mode = 0: `x[sr2]`. -/
  | reg (sr2 : RegIdx)
  /-- mode = 1: the sign-extended immediate. -/
  | imm (imm5 : BitVec 5)
  deriving DecidableEq, Repr

/-- The value of the second operand (R131): an immediate reads no register. -/
def Operand2.value (s : State) : Operand2 → Word
  | .reg sr2 => s.reg sr2
  | .imm imm5 => sext16 imm5

/-- `add16(pc, sext_16(pcoffset9))`, `pc` being the already advanced one (R43). -/
def pcRelative (s : State) (off9 : BitVec 9) : Word := add16 s.pc (sext16 off9)

end Sys2Proof.Machine
end

