-- ==== Sys2Proof/Machine/Control.lean ====
section
/-! DEFINITION. Control transfer: BR (42_control.md). -/

namespace Sys2Proof.Machine

/-- BR: `pc <- add16(pc, sext_16(pcoffset9))` when taken, unchecked; else no effect (R120). -/
def execBr (n z p : Bool) (off9 : BitVec 9) (s : State) : Host.Outcome State Fault Refusal :=
  if branchTaken n z p s.cc then .next (s.setPc (pcRelative s off9)) else .next s

end Sys2Proof.Machine
end

