-- ==== Sys2Proof/Machine/Illegal.lean ====
section
/-! DEFINITION. The nine illegal opcodes: each aborts the run with IllegalOpcode, reporting the opcode and the already
advanced `pc` (60_exceptions.md R173, 30_encoding.md R59). -/

namespace Sys2Proof.Machine

/-- `raise IllegalOpcode(op, pc)` (R105, R173). -/
def illegalOpcode (op : BitVec 4) (s : State) : Host.Outcome State Fault Refusal :=
  .next (raise (.illegalOpcode op s.pc) s)

/-- A word of opcode 4 (R173). -/
def execIllegal4 (s : State) : Host.Outcome State Fault Refusal := illegalOpcode 4#4 s

/-- A word of opcode 6 (R173). -/
def execIllegal6 (s : State) : Host.Outcome State Fault Refusal := illegalOpcode 6#4 s

/-- A word of opcode 7 (R173). -/
def execIllegal7 (s : State) : Host.Outcome State Fault Refusal := illegalOpcode 7#4 s

/-- A word of opcode 8 (R173). -/
def execIllegal8 (s : State) : Host.Outcome State Fault Refusal := illegalOpcode 8#4 s

/-- A word of opcode 10 (R173). -/
def execIllegal10 (s : State) : Host.Outcome State Fault Refusal := illegalOpcode 10#4 s

/-- A word of opcode 11 (R173). -/
def execIllegal11 (s : State) : Host.Outcome State Fault Refusal := illegalOpcode 11#4 s

/-- A word of opcode 12 (R173). -/
def execIllegal12 (s : State) : Host.Outcome State Fault Refusal := illegalOpcode 12#4 s

/-- A word of opcode 13 (R173). -/
def execIllegal13 (s : State) : Host.Outcome State Fault Refusal := illegalOpcode 13#4 s

/-- A word of opcode 14 (R173). -/
def execIllegal14 (s : State) : Host.Outcome State Fault Refusal := illegalOpcode 14#4 s

end Sys2Proof.Machine
end

