-- ==== Sys2Proof/Machine/LoadStore.lean ====
section
/-! DEFINITION. LD and ST (44_load_store.md). Neither writes `CC` (R150, R151, D7). -/

namespace Sys2Proof.Machine

/-- LD: `x[dr] <- M[ea]`; outside 0..49 the run aborts and `x[dr]` is not written (R150, R153). -/
def execLd (dr : RegIdx) (off9 : BitVec 9) (s : State) : Host.Outcome State Fault Refusal :=
  match memRead .ld (pcRelative s off9) s with
  | .ok w => .next (s.setReg dr w)
  | .error e => .next (raise e s)

/-- ST: `M[ea] <- x[sr]`; outside 0..49 the run aborts and no cell is written (R151, R153). -/
def execSt (sr : RegIdx) (off9 : BitVec 9) (s : State) : Host.Outcome State Fault Refusal :=
  match memWrite .st (pcRelative s off9) (s.reg sr) s with
  | .ok s' => .next s'
  | .error e => .next (raise e s)

end Sys2Proof.Machine
end

