-- ==== Sys2Proof/Machine/Operate.lean ====
section
/-! DEFINITION. The operate instructions ADD, AND and NOT (43_operate.md). -/

namespace Sys2Proof.Machine

open Sys2Proof.Machine.BitVector (add16 and16 not16 signedValue)

/-- The definers' common end: `x[dr] <- r`, then `setcc` of the signed reading of the value now in `x[dr]` (R19, R130). -/
def define (dr : RegIdx) (r : Word) (s : State) : State :=
  let stored := s.setReg dr r
  setcc (signedValue (stored.reg dr)) stored

/-- ADD, register mode (R132). -/
def execAddReg (dr sr1 sr2 : RegIdx) (s : State) : Host.Outcome State Fault Refusal :=
  .next (define dr (add16 (s.reg sr1) ((Operand2.reg sr2).value s)) s)

/-- ADD, immediate mode (R133). -/
def execAddImm (dr sr1 : RegIdx) (imm5 : BitVec 5) (s : State) : Host.Outcome State Fault Refusal :=
  .next (define dr (add16 (s.reg sr1) ((Operand2.imm imm5).value s)) s)

/-- AND, register mode; it defines the condition codes (R134, D6). -/
def execAndReg (dr sr1 sr2 : RegIdx) (s : State) : Host.Outcome State Fault Refusal :=
  .next (define dr (and16 (s.reg sr1) ((Operand2.reg sr2).value s)) s)

/-- AND, immediate mode, the immediate sign-extended (R135, R54). -/
def execAndImm (dr sr1 : RegIdx) (imm5 : BitVec 5) (s : State) : Host.Outcome State Fault Refusal :=
  .next (define dr (and16 (s.reg sr1) ((Operand2.imm imm5).value s)) s)

/-- NOT; the condition codes come from the value, never from the index `dr` (R136, D5). -/
def execNot (dr sr : RegIdx) (s : State) : Host.Outcome State Fault Refusal :=
  .next (define dr (not16 (s.reg sr)) s)

end Sys2Proof.Machine
end

