-- ==== Sys2Proof/Machine/Trap.lean ====
section
/-! DEFINITION. The services of TRAP (45_trap.md). The vector is compared when the word is decoded (R160); TRAP writes no
register, no memory, no `pc` and no `CC`, and raises nothing. -/

namespace Sys2Proof.Machine

open Sys2Proof.Machine.BitVector (lowByte)

/-- TRAP x21, OUT: appends the low 8 bits of `x[0]` to `OUT` (R161). -/
def execTrapOut (s : State) : Host.Outcome State Fault Refusal :=
  .next (s.emit (lowByte (s.reg 0)))

/-- TRAP x25, HALT: `RUN <- halted` and nothing else (R162). -/
def execTrapHalt (s : State) : Host.Outcome State Fault Refusal :=
  .next (s.setRun .halted)

/-- TRAP with another vector: nothing changes and the run goes on (R163, D8; notes/assumptions/9.md). -/
def execTrapOther (_vect8 : BitVec 8) (s : State) : Host.Outcome State Fault Refusal :=
  .next s

end Sys2Proof.Machine
end

