-- ==== Sys2Proof/Machine/Dispatch.lean ====
section
/-! DEFINITION. The dispatch: steps 4 and 5 of a cycle, the handler of the decoded instruction run on the state whose
`IR` and `pc` the fetch and the advance have already written (41_fetch_decode_execute.md R105, R106). -/

namespace Sys2Proof.Machine

def exec (i : Instr) (s : State) : Host.Outcome State Fault Refusal :=
  match i with
  | .br n z p off9 => Sys2Proof.Machine.execBr n z p off9 s
  | .addReg dr sr1 sr2 => Sys2Proof.Machine.execAddReg dr sr1 sr2 s
  | .addImm dr sr1 imm5 => Sys2Proof.Machine.execAddImm dr sr1 imm5 s
  | .ld dr off9 => Sys2Proof.Machine.execLd dr off9 s
  | .st sr off9 => Sys2Proof.Machine.execSt sr off9 s
  | .andReg dr sr1 sr2 => Sys2Proof.Machine.execAndReg dr sr1 sr2 s
  | .andImm dr sr1 imm5 => Sys2Proof.Machine.execAndImm dr sr1 imm5 s
  | .not dr sr => Sys2Proof.Machine.execNot dr sr s
  | .trapOut => Sys2Proof.Machine.execTrapOut s
  | .trapHalt => Sys2Proof.Machine.execTrapHalt s
  | .trapOther vect8 => Sys2Proof.Machine.execTrapOther vect8 s
  | .illegal4 => Sys2Proof.Machine.execIllegal4 s
  | .illegal6 => Sys2Proof.Machine.execIllegal6 s
  | .illegal7 => Sys2Proof.Machine.execIllegal7 s
  | .illegal8 => Sys2Proof.Machine.execIllegal8 s
  | .illegal10 => Sys2Proof.Machine.execIllegal10 s
  | .illegal11 => Sys2Proof.Machine.execIllegal11 s
  | .illegal12 => Sys2Proof.Machine.execIllegal12 s
  | .illegal13 => Sys2Proof.Machine.execIllegal13 s
  | .illegal14 => Sys2Proof.Machine.execIllegal14 s

end Sys2Proof.Machine
end

