-- ==== Sys2Proof/Machine/Step.lean ====
section
/-! DEFINITION. One step of the machine is one cycle of the engine (41_fetch_decode_execute.md R101, R109). -/

namespace Sys2Proof.Machine

/-- One cycle: fetch, advance, decode, dispatch, handler (R101). A fetch outside 0..49 aborts the run before anything
else happens (R102). In a terminal state nothing changes (R110, D17; notes/assumptions/7.md). -/
def step (s : State) : Host.Outcome State Fault Refusal :=
  match s.run with
  | .running =>
    match fetch s with
    | .ok fetched => exec (decode fetched.ir) (advance fetched)
    | .error e => .next (raise e s)
  | .halted => .next s
  | .aborted _ => .next s

/-- `s` with the word of `nbits` and `w` in the cell the next step fetches from. A step fetches while running and with
`pc` in 0..49, so a terminal state is set running and an out-of-range `pc` to 0; nothing else changes
(notes/assumptions/17.md). -/
def State.withFetchWord (s : State) (nbits w : Nat) : State :=
  let a : Word := if s.pc.toNat < Config.memSize then s.pc else 0
  ((s.setRun .running).setPc a).setMem (s.mem.write a.toNat (wordOf nbits w))

end Sys2Proof.Machine
end

