-- ==== Sys2Proof/Machine/Load.lean ====
section
/-! DEFINITION. The lifecycle of a machine, its construction and its program load, what the host does before a run
(70_reset_and_hazards.md R190 to R196). -/

namespace Sys2Proof.Machine

/-- The list in canonical form of an array given cell by cell. -/
def Memory.ofCells (f : Nat → Word) : Memory :=
  (List.range Config.memSize).filterMap fun a => if f a = Memory.unlisted a then none else some (a, f a)

/-- Construction with `CC_RESET` and `MEM_RESET` as arguments (R4, R20, R23, D2, D3). At the spec's defaults it is
`State.reset`. -/
def State.constructed (ccReset : CondCode) (memReset : Nat → Word) : State :=
  (State.reset.setCc ccReset).setMem (Memory.ofCells memReset)

/-- A machine in the phase of its life it has reached; the phases come once each, in this order (R190). The phase is
the interface's, not architectural state (R10): no instruction reads or writes it. -/
inductive Lifecycle where
  /-- Constructed, no program loaded. -/
  | constructed (s : State)
  /-- The program is loaded, the run has not begun: the launch state (R196). -/
  | loaded (s : State)
  /-- The run has begun: between two cycles, or at its end. -/
  | started (s : State)
  deriving DecidableEq, Repr

/-- The architectural state of a machine in any phase. -/
def Lifecycle.state : Lifecycle → State
  | .constructed s => s
  | .loaded s => s
  | .started s => s

/-- The outcome of a load. -/
inductive LoadResult where
  /-- The loaded machine. -/
  | done (m : Lifecycle)
  /-- The error, and no machine to run (R195). -/
  | failed (e : Error)
  /-- The load is not offered in this phase: refused, with no machine changed (R190, D17, U11). -/
  | notOffered
  deriving DecidableEq, Repr

/-- What is wrong with the number of strings of a load, if anything (R194). -/
def countError (count : Nat) : Option LoadReason :=
  if count = 0 then some .empty
  else if count > Config.loadMax then some (.tooLong count)
  else none

/-- `M[a + i] <- w_i`, in order (R192). -/
def Memory.writeFrom (a : Nat) : List Word → Memory → Memory
  | [], m => m
  | w :: ws, m => Memory.writeFrom (a + 1) ws (m.write a w)

/-- The state with the words at addresses 0, 1, ..., nothing else changed (R192). -/
def State.withProgram (ws : List Word) (s : State) : State := s.setMem (Memory.writeFrom 0 ws s.mem)

/-- Program load, word level, of a constructed machine that has none yet (R190, R192, R194). -/
def loadWords (ws : List Word) : Lifecycle → LoadResult
  | .constructed s =>
    match countError ws.length with
    | some reason => .failed (.loadError reason)
    | none => .done (.loaded (s.withProgram ws))
  | .loaded _ => .notOffered
  | .started _ => .notOffered

/-- The characters removed from a program string: space, tab, line feed, carriage return, vertical tab, form feed
(R193, D20; notes/assumptions/13.md). -/
def isWhitespace (c : Char) : Bool :=
  [0x20, 0x09, 0x0A, 0x0D, 0x0B, 0x0C].contains c.toNat

/-- A program string after removing whitespace (R193). -/
def cleaned (line : String) : List Char :=
  line.toList.filter fun c => !isWhitespace c

/-- A program string as a word: the cleaned string is a 16-bit literal (R193, R72). -/
def parseWord (line : String) : Option Word :=
  BitVector.fromLiteral 16 (cleaned line)

/-- All strings as words, or the index of the first offending one, counted from `index` (R171). -/
def parseWords (index : Nat) : List String → Except LoadReason (List Word)
  | [] => .ok []
  | line :: lines =>
    match parseWord line with
    | none => .error (.badWord index)
    | some w =>
      match parseWords (index + 1) lines with
      | .ok ws => .ok (w :: ws)
      | .error reason => .error reason

/-- Program load, text form, in the same phase: every string is checked before any cell is written (R193 to R195, D12);
the count is checked before the strings (notes/assumptions/12.md). -/
def loadText (lines : List String) : Lifecycle → LoadResult
  | .constructed s =>
    match countError lines.length with
    | some reason => .failed (.loadError reason)
    | none =>
      match parseWords 0 lines with
      | .error reason => .failed (.loadError reason)
      | .ok ws => loadWords ws (.constructed s)
  | .loaded _ => .notOffered
  | .started _ => .notOffered

/-- Construct, then load once (R190): the loaded machine is in the launch state (R196). -/
def launch (lines : List String) : LoadResult := loadText lines (.constructed State.reset)

end Sys2Proof.Machine
end

