-- ==== Sys2Proof/Machine/Observe.lean ====
section
/-! DEFINITION. The state accessors: what the host reads, a snapshot without effect (70_reset_and_hazards.md R198). -/

namespace Sys2Proof.Machine

/-- Copies of the registers, the 50 cells, `pc`, `IR` and `CC`, and of `RUN` and `OUT` (R198). -/
structure Observation where
  x : List Word
  cells : List Word
  pc : Word
  ir : Word
  cc : CondCode
  run : RunState
  out : List Code
  deriving DecidableEq, Repr

/-- The observation of a state. -/
def observe (s : State) : Observation where
  x := s.x.toList
  cells := (List.range Config.memSize).map s.mem.read
  pc := s.pc
  ir := s.ir
  cc := s.cc
  run := s.run
  out := s.out

end Sys2Proof.Machine
end

