-- ==== Sys2Proof/Machine/Run.lean ====
section
/-! DEFINITION. The execution entry: cycles from the current `pc` until halt or fatal error (41_fetch_decode_execute.md
R107). A run need not end, so the function counts cycles and reports running out of them as an outcome of its own (R108). -/

namespace Sys2Proof.Machine

/-- How a run bounded by a number of cycles ended. -/
inductive RunReport where
  /-- `RUN` is halted or aborted, in this end state. -/
  | ended (s : State)
  /-- The cycles are used up and the machine is still running, in this state. -/
  | outOfFuel (s : State)
  /-- A step of the model stopped outside the machine's own `RUN` states; no step does. -/
  | stopped
  deriving DecidableEq, Repr

/-- At most `fuel` cycles from `s` (R107, R108). -/
def runFor (fuel : Nat) (s : State) : RunReport :=
  match s.run with
  | .halted => .ended s
  | .aborted _ => .ended s
  | .running =>
    match fuel with
    | 0 => .outOfFuel s
    | n + 1 =>
      match step s with
      | .next t => runFor n t
      | .fault _ => .stopped
      | .refused _ => .stopped

/-- The state a bounded run reports. -/
def RunReport.state : RunReport → Option State
  | .ended s => some s
  | .outOfFuel s => some s
  | .stopped => none

/-- The execution entry on a machine in its lifecycle, for at most `fuel` cycles (R190, R199): `none`, not offered, before
a successful load; a run under way goes on, and a call after its end changes nothing (R110, D17). -/
def execute (fuel : Nat) : Lifecycle → Option Lifecycle
  | .constructed _ => none
  | .loaded s => (runFor fuel s).state.map .started
  | .started s => (runFor fuel s).state.map .started

end Sys2Proof.Machine
end

