-- ==== Sys2Proof/Machine/UnboundedPc.lean ====
section
/-! DEFINITION. The machine of the source's reading of the program counter, "range conceptually unbounded": `pc` is an
integer and no sum is reduced (10_state.md R14, 20_memory.md R44, 92_eei_decisions.md D1 in detail). It is not the model;
it stands here so that the claim that the two cannot be told apart can be stated. -/

namespace Sys2Proof.Machine

open Sys2Proof.Machine.BitVector (add16 and16 not16 lowByte sext16)

/-- `RUN` with error reports that carry the exact sums. -/
inductive WideRun where
  | running
  | halted
  | addressError (site : Site) (addr : Int)
  | illegalOpcode (op : BitVec 4) (pcv : Int)
  deriving DecidableEq, Repr

/-- The state with an unbounded `pc`. -/
structure Wide where
  x : Vector Word 8
  pc : Int
  ir : Word
  cc : CondCode
  mem : Memory
  run : WideRun
  out : List Code
  deriving DecidableEq, Repr

/-- `0 ≤ a < 50` for an integer address (R44). -/
abbrev validAddress (a : Int) : Prop := 0 ≤ a ∧ a < Config.memSize

/-- A register write followed by `setcc` of the value. -/
def Wide.define (m : Wide) (dr : RegIdx) (r : Word) : Wide :=
  { m with x := m.x.set dr.val r, cc := ccOf r.toInt }

/-- An illegal opcode. -/
def Wide.illegal (m : Wide) (op : BitVec 4) : Wide := { m with run := .illegalOpcode op m.pc }

/-- The handlers, with exact sums. -/
def Wide.handle (m : Wide) : Instr → Wide
  | .br n z p off9 => if branchTaken n z p m.cc then { m with pc := m.pc + off9.toInt } else m
  | .addReg dr sr1 sr2 => m.define dr (add16 m.x[sr1.val] m.x[sr2.val])
  | .addImm dr sr1 imm5 => m.define dr (add16 m.x[sr1.val] (sext16 imm5))
  | .ld dr off9 =>
    if validAddress (m.pc + off9.toInt) then
      { m with x := m.x.set dr.val (m.mem.read (m.pc + off9.toInt).toNat) }
    else { m with run := .addressError .ld (m.pc + off9.toInt) }
  | .st sr off9 =>
    if validAddress (m.pc + off9.toInt) then
      { m with mem := m.mem.write (m.pc + off9.toInt).toNat m.x[sr.val] }
    else { m with run := .addressError .st (m.pc + off9.toInt) }
  | .andReg dr sr1 sr2 => m.define dr (and16 m.x[sr1.val] m.x[sr2.val])
  | .andImm dr sr1 imm5 => m.define dr (and16 m.x[sr1.val] (sext16 imm5))
  | .not dr sr => m.define dr (not16 m.x[sr.val])
  | .trapOut => { m with out := m.out ++ [lowByte m.x[0]] }
  | .trapHalt => { m with run := .halted }
  | .trapOther _ => m
  | .illegal4 => m.illegal 4
  | .illegal6 => m.illegal 6
  | .illegal7 => m.illegal 7
  | .illegal8 => m.illegal 8
  | .illegal10 => m.illegal 10
  | .illegal11 => m.illegal 11
  | .illegal12 => m.illegal 12
  | .illegal13 => m.illegal 13
  | .illegal14 => m.illegal 14

/-- One cycle; a terminal state does not change. -/
def Wide.cycle (m : Wide) : Wide :=
  match m.run with
  | .running =>
    if validAddress m.pc then
      ({ m with ir := m.mem.read m.pc.toNat, pc := m.pc + 1 } : Wide).handle (decode (m.mem.read m.pc.toNat))
    else { m with run := .addressError .fetch m.pc }
  | .halted => m
  | .addressError _ _ => m
  | .illegalOpcode _ _ => m

/-- `n` cycles. -/
def Wide.cycles : Nat → Wide → Wide
  | 0, m => m
  | n + 1, m => Wide.cycles n m.cycle

/-- The run states correspond: the same kind of end, an error's number reduced to 16 bits. -/
def WideRun.matches : WideRun → RunState → Prop
  | .running, r => r = .running
  | .halted, r => r = .halted
  | .addressError site a, r => r = .aborted (.addressError site (BitVec.ofInt 16 a))
  | .illegalOpcode op pcv, r => r = .aborted (.illegalOpcode op (BitVec.ofInt 16 pcv))

/-- The two machines agree on everything the program can see, `pc` being equal up to the reduction to 16 bits. -/
structure Wide.Agrees (m : Wide) (s : State) : Prop where
  x : s.x = m.x
  pc : s.pc = BitVec.ofInt 16 m.pc
  ir : s.ir = m.ir
  cc : s.cc = m.cc
  mem : s.mem = m.mem
  run : m.run.matches s.run
  out : s.out = m.out

end Sys2Proof.Machine
end

