-- ==== Sys2Proof/Safety.lean ====
section
/-! DEFINITION. The terms in which claims are stated: a finished run, the invariant of the machine, what an instruction
may write, and the parts of a frame. -/

namespace Sys2Proof.Machine

/-! ## Runs -/

/-- A run that came to its end: halted. An aborted run is no result (R175). -/
def State.Finished (s : State) : Prop := s.run = .halted

/-- No fatal error has happened (R175). -/
def State.Safe (s : State) : Prop := ∀ e, s.run ≠ .aborted e

/-! ## The invariant -/

/-- The nine illegal opcodes (R59). -/
def illegalOpcodes : List (BitVec 4) := [4, 6, 7, 8, 10, 11, 12, 13, 14]

/-- The values `pc` can hold: 0..305 and 65281..65535 (R15). -/
def PcReachable (pc : Word) : Prop := pc.toNat ≤ 305 ∨ 65281 ≤ pc.toNat

/-- The values `CC` can hold (R20), `ccReset` being its value before the first definer. -/
def CcReachable (ccReset cc : CondCode) : Prop :=
  cc = ccReset ∨ cc = 0b100#3 ∨ cc = 0b010#3 ∨ cc = 0b001#3

/-- What the state holds beside a terminal `RUN`: the end state of a halted run (R111) and the rows of the table of
aborted states (R176). A run never aborts with a load error (R171). -/
def EndRecord (s : State) : Prop :=
  match s.run with
  | .running => True
  | .halted => 1 ≤ s.pc.toNat ∧ s.pc.toNat ≤ 50 ∧ decode s.ir = .trapHalt
  | .aborted (.loadError _) => False
  | .aborted (.addressError .fetch a) => s.pc = a ∧ 50 ≤ a.toNat
  | .aborted (.addressError .ld ea) =>
    1 ≤ s.pc.toNat ∧ s.pc.toNat ≤ 50 ∧ 50 ≤ ea.toNat ∧
      ∃ dr off9, decode s.ir = .ld dr off9 ∧ ea = pcRelative s off9
  | .aborted (.addressError .st ea) =>
    1 ≤ s.pc.toNat ∧ s.pc.toNat ≤ 50 ∧ 50 ≤ ea.toNat ∧
      ∃ sr off9, decode s.ir = .st sr off9 ∧ ea = pcRelative s off9
  | .aborted (.illegalOpcode op pcv) =>
    1 ≤ s.pc.toNat ∧ s.pc.toNat ≤ 50 ∧ pcv = s.pc ∧ op = BitVector.field s.ir 12 4 ∧ op ∈ illegalOpcodes

/-- The invariant of the machine. -/
structure State.Inv (ccReset : CondCode) (s : State) : Prop where
  memory : s.mem.wf
  flags : CcReachable ccReset s.cc
  counter : PcReachable s.pc
  record : EndRecord s

end Sys2Proof.Machine

/-! ## Who writes what -/

/-- The definers of `CC` and the register they take it from: ADD, AND and NOT (R19). -/
def Sys2Proof.Instr.defines : Sys2Proof.Instr → Option Sys2Proof.RegIdx
  | .addReg dr _ _ => some dr
  | .addImm dr _ _ => some dr
  | .andReg dr _ _ => some dr
  | .andImm dr _ _ => some dr
  | .not dr _ => some dr
  | .br .. => none
  | .ld .. => none
  | .st .. => none
  | .trapOut => none
  | .trapHalt => none
  | .trapOther _ => none
  | .illegal4 => none
  | .illegal6 => none
  | .illegal7 => none
  | .illegal8 => none
  | .illegal10 => none
  | .illegal11 => none
  | .illegal12 => none
  | .illegal13 => none
  | .illegal14 => none

/-- The register an instruction writes: the definers' `dr` and that of LD (R12, C1). -/
def Sys2Proof.Instr.writesReg : Sys2Proof.Instr → Option Sys2Proof.RegIdx
  | .addReg dr _ _ => some dr
  | .addImm dr _ _ => some dr
  | .andReg dr _ _ => some dr
  | .andImm dr _ _ => some dr
  | .not dr _ => some dr
  | .ld dr _ => some dr
  | .br .. => none
  | .st .. => none
  | .trapOut => none
  | .trapHalt => none
  | .trapOther _ => none
  | .illegal4 => none
  | .illegal6 => none
  | .illegal7 => none
  | .illegal8 => none
  | .illegal10 => none
  | .illegal11 => none
  | .illegal12 => none
  | .illegal13 => none
  | .illegal14 => none

namespace Sys2Proof.Machine

/-! ## Frames -/

/-- No register changes. -/
def SameRegs (s t : State) : Prop := ∀ r, t.reg r = s.reg r

/-- No register but `dr` changes. -/
def SameRegsBut (dr : RegIdx) (s t : State) : Prop := ∀ r, r ≠ dr → t.reg r = s.reg r

/-- Every address reads as before. -/
def SameMem (s t : State) : Prop := ∀ a, t.mem.read a = s.mem.read a

/-- Every address but `ea` reads as before. -/
def SameMemBut (ea : Nat) (s t : State) : Prop := ∀ a, a ≠ ea → t.mem.read a = s.mem.read a

/-- `cc` is the one-hot class of the signed number `v` (R18, R130). -/
def CcDescribes (cc : CondCode) (v : Int) : Prop :=
  (cc = 0b100#3 ↔ v < 0) ∧ (cc = 0b010#3 ↔ v = 0) ∧ (cc = 0b001#3 ↔ 0 < v)

/-- What every operate instruction leaves alone: every register but `dr`, memory, `pc`, `IR`, `RUN` and `OUT`
(43_operate.md, introduction). -/
def OperateFrame (dr : RegIdx) (s t : State) : Prop :=
  SameRegsBut dr s t ∧ SameMem s t ∧ t.pc = s.pc ∧ t.ir = s.ir ∧ t.run = s.run ∧ t.out = s.out

end Sys2Proof.Machine
end

