-- ==== Sys2Proof/Certificates/Slice0/Obligations.lean ====
section
/-! DEFINITION. The statements for the provers. Each docstring names the rules of spec/ it formalises, and what in it is
a choice of the spec's or the model's rather than the source's. -/

open Sys2Proof Sys2Proof.Machine
open Sys2Proof.Machine.BitVector

/-! ## The bit-vector primitive -/

/-- R73: the unsigned view is the weighted sum of the bits, MSB-first and LSB-0, in `[0, 2^w - 1]`. -/
def Obligations.UnsignedViewIsWeightedBitSum : Prop :=
  ∀ (w : Nat) [NeZero w] (v : BitVec w),
    unsignedValue v = ∑ i ∈ Finset.range w, (v.getMsbD i).toNat * 2 ^ (w - 1 - i) ∧
    unsignedValue v = ∑ k ∈ Finset.range w, (v.getLsbD k).toNat * 2 ^ k ∧
    unsignedValue v ≤ 2 ^ w - 1

/-- R75: the signed view gives the most significant bit the weight `-2^(w-1)`; widths start at 1, so the width is `n +
1`. -/
def Obligations.SignedViewGivesTopBitNegativeWeight : Prop :=
  ∀ (n : Nat) (v : BitVec (n + 1)),
    signedValue v =
      -((v.getMsbD 0).toNat * 2 ^ n : Int) + ∑ i ∈ Finset.range n, ((v.getMsbD (i + 1)).toNat * 2 ^ (n - 1 - i) : Int) ∧
    (v.getMsbD 0 = false → signedValue v = unsignedValue v) ∧
    (v.getMsbD 0 = true → signedValue v = (unsignedValue v : Int) - 2 ^ (n + 1)) ∧
    -2 ^ n ≤ signedValue v ∧ signedValue v ≤ 2 ^ n - 1

/-- R76: the signed encoder takes any integer modulo `2^w`; it is how ADD obtains its wrapped result. -/
def Obligations.SignedEncoderTruncatesModuloPowerOfTwo : Prop :=
  (∀ (n : Nat) (v : Int),
    (unsignedValue (setSignedValue (n + 1) v) : Int) = v % 2 ^ (n + 1) ∧
    (-2 ^ n ≤ v → v ≤ 2 ^ n - 1 → signedValue (setSignedValue (n + 1) v) = v) ∧
    signedValue (setSignedValue (n + 1) v) % 2 ^ (n + 1) = v % 2 ^ (n + 1)) ∧
  ∀ (dr sr1 sr2 : RegIdx) (s : State), ∃ t, exec (.addReg dr sr1 sr2) s = .next t ∧
    t.reg dr = setSignedValue 16 (signedValue (s.reg sr1) + signedValue (s.reg sr2))

/-- R78: invert flips every bit, `u(R) = 2^w - 1 - u(V)`, `s(R) = -s(V) - 1`, is an involution, and is what NOT
stores. -/
def Obligations.InvertFlipsEveryBit : Prop :=
  (∀ (n : Nat) (v : BitVec (n + 1)),
    (∀ i, i < n + 1 → (invert v).getMsbD i = !(v.getMsbD i)) ∧
    unsignedValue (invert v) = 2 ^ (n + 1) - 1 - unsignedValue v ∧
    signedValue (invert v) = -signedValue v - 1 ∧
    invert (invert v) = v) ∧
  ∀ (dr sr : RegIdx) (s : State), ∃ t, exec (.not dr sr) s = .next t ∧ t.reg dr = invert (s.reg sr)

/-- R83: AND is bitwise, commutative, associative and idempotent, with zero and all ones as its bounds. -/
def Obligations.BitwiseAndActsBitByBit : Prop :=
  ∀ (w : Nat) [NeZero w] (a b c : BitVec w),
    (∀ i, i < w → (BitVector.and a b).getMsbD i = (a.getMsbD i && b.getMsbD i)) ∧
    BitVector.and a b = BitVector.and b a ∧
    BitVector.and (BitVector.and a b) c = BitVector.and a (BitVector.and b c) ∧
    BitVector.and a a = a ∧
    BitVector.and a 0 = 0 ∧
    BitVector.and a (BitVec.allOnes w) = a

/-- R81 (derived: its domain `1 ≤ k ≤ w` is decision D16): sign extension copies the field, replicates its top bit and
keeps the signed value; the engine's two shapes are instances of it. -/
def Obligations.SignExtensionReplicatesTopBit : Prop :=
  (∀ (k w : Nat) [NeZero k] [NeZero w] (f : BitVec k) (r : BitVec w), BitVector.signExtend w f = some r →
    (∀ j, j < k → r.getLsbD j = f.getLsbD j) ∧
    (∀ j, k ≤ j → j < w → r.getLsbD j = f.getLsbD (k - 1)) ∧
    signedValue r = signedValue f) ∧
  (∀ f : BitVec 5, BitVector.signExtend 16 f = some (sext16 f)) ∧
  (∀ f : BitVec 9, BitVector.signExtend 16 f = some (sext16 f))

/-- R86 (derived in the spec for the general width): both encoders and both views are inverse to each other. -/
def Obligations.EncodersAndViewsRoundTrip : Prop :=
  ∀ (n : Nat),
    (∀ v : Int, -2 ^ n ≤ v → v ≤ 2 ^ n - 1 → signedValue (setSignedValue (n + 1) v) = v) ∧
    (∀ v : Int, 0 ≤ v → v ≤ 2 ^ (n + 1) - 1 →
      ∃ r, setUnsignedValue (n + 1) v = some r ∧ (unsignedValue r : Int) = v) ∧
    (∀ r : BitVec (n + 1), setSignedValue (n + 1) (signedValue r) = r ∧
      setUnsignedValue (n + 1) (unsignedValue r) = some r ∧
      signedValue r = (unsignedValue r : Int) - 2 ^ (n + 1) * (r.getLsbD n).toNat)

/-- R87 (derived in the spec for tilings in general): consecutive slices that tile a vector give back its bits. -/
def Obligations.SlicesThatTileReconstructTheVector : Prop :=
  (∀ v : Word, ∃ a b c, slice v 0 4 = some a ∧ slice v 4 3 = some b ∧ slice v 7 9 = some c ∧
    bits a ++ bits b ++ bits c = bits v) ∧
  (∀ (w : Nat) [NeZero w] (v : BitVec w) (lengths : List Nat), (∀ n ∈ lengths, 1 ≤ n) → lengths.sum = w →
    tile v 0 lengths = some (bits v))

/-- R88 (derived in the spec): the sign and view laws the instruction rules use. -/
def Obligations.SignAndViewLawsOfWords : Prop :=
  (∀ (k : Nat) [NeZero k] (f : BitVec k), k ≤ 16 → (sext16 f).toInt = f.toInt) ∧
  (∀ a : Word, (not16 a).toInt = -a.toInt - 1 ∧ not16 a ≠ a) ∧
  (∀ a b : Word, add16 a b = add16 b a ∧ add16 a 0x0000#16 = a ∧ add16 a (not16 a) = 0xFFFF#16) ∧
  (∀ a b : Word, ((add16 a b).toInt = a.toInt + b.toInt ↔ -32768 ≤ a.toInt + b.toInt ∧ a.toInt + b.toInt ≤ 32767) ∧
    ((add16 a b).toInt = a.toInt + b.toInt ∨ (add16 a b).toInt = a.toInt + b.toInt + 65536 ∨
      (add16 a b).toInt = a.toInt + b.toInt - 65536)) ∧
  (∀ v : Word, (v.toInt < 0 ↔ v.getLsbD 15 = true) ∧ (v.toInt = 0 ↔ v = 0x0000#16) ∧
    (0 < v.toInt ↔ v.getLsbD 15 = false ∧ v ≠ 0x0000#16))

/-- R82 (derived in the spec for the unsigned reading): the sum through the signed views is the unsigned sum modulo
`2^w`, and the same function computes addresses. -/
def Obligations.AdditionIsModularUnderBothViews : Prop :=
  (∀ (w : Nat) [NeZero w] (a b : BitVec w),
    BitVector.add a b = setSignedValue w (signedValue a + signedValue b) ∧
    unsignedValue (BitVector.add a b) = (unsignedValue a + unsignedValue b) % 2 ^ w) ∧
  (∀ (s : State) (off9 : BitVec 9), pcRelative s off9 = BitVector.add s.pc (sext16 off9))

/-- R89, R70, R72, R74, R77, R81, R84 (derived: the domains, width 0 outside all of them, rest on decision D16,
notes/assumptions/11.md): the operations that can fail do so exactly outside their domain, and inside it give the
value their rules state. -/
def Obligations.PrimitiveFailsExactlyOutsideItsDomain : Prop :=
  (∀ (w : Nat) (cs : List Char),
    (fromLiteral w cs = none ↔ w = 0 ∨ cs.length ≠ w ∨ ∃ c ∈ cs, c ≠ '0' ∧ c ≠ '1') ∧
    ∀ v, fromLiteral w cs = some v → bits v = cs.map (fun c => c == '1')) ∧
  (∀ (w : Nat) (n : Int),
    (setUnsignedValue w n = none ↔ w = 0 ∨ n < 0 ∨ 2 ^ w ≤ n) ∧
    ∀ [NeZero w] (v : BitVec w), setUnsignedValue w n = some v → (unsignedValue v : Int) = n) ∧
  (∀ (w : Nat) [NeZero w] (v : BitVec w) (start length : Int),
    (slice v start length = none ↔ start < 0 ∨ length ≤ 0 ∨ (w : Int) < start + length) ∧
    ∀ r, slice v start length = some r → bits r = ((bits v).drop start.toNat).take length.toNat) ∧
  (∀ (k w : Nat) [NeZero k] (f : BitVec k),
    (BitVector.signExtend w f = none ↔ w < k) ∧
    ∀ r, BitVector.signExtend w f = some r → bits r = List.replicate (w - k) (f.getMsbD 0) ++ bits f) ∧
  (∀ (k w : Nat) [NeZero k] (f : BitVec k),
    (BitVector.zeroExtend w f = none ↔ w < k) ∧
    ∀ r, BitVector.zeroExtend w f = some r → bits r = List.replicate (w - k) false ++ bits f)

/-- R84, R85 (derived in the spec; that a narrower width has no result is decision D16, notes/assumptions/11.md): zero
extension keeps the unsigned value; the low byte is the last eight positions, the value modulo 256; concatenation puts
its first operand in the more significant positions. -/
def Obligations.ZeroExtensionLowByteAndConcatenation : Prop :=
  (∀ (k w : Nat) [NeZero k] [NeZero w] (f : BitVec k), k ≤ w →
    ∃ r, BitVector.zeroExtend w f = some r ∧ unsignedValue r = unsignedValue f ∧
      (∀ i, i < k → r.getLsbD i = f.getLsbD i) ∧ (∀ i, k ≤ i → r.getLsbD i = false)) ∧
  (∀ v : Word, slice v 8 8 = some (lowByte v) ∧ unsignedValue (lowByte v) = unsignedValue v % 256) ∧
  (∀ (j k : Nat) [NeZero j] [NeZero k] (a : BitVec j) (b : BitVec k),
    (concat a b).toNat = unsignedValue a * 2 ^ k + unsignedValue b ∧
    (∀ i, i < j → (concat a b).getMsbD i = a.getMsbD i) ∧
    (∀ i, i < k → (concat a b).getMsbD (j + i) = b.getMsbD i))

/-- R80, with R79's copy: equality is of width and pattern, whatever the numeric values, and a copy equals its
original. -/
def Obligations.EqualityIsOfWidthAndPattern : Prop :=
  (∀ (j k : Nat) [NeZero j] [NeZero k] (a : BitVec j) (b : BitVec k),
    (equal a b = true ↔ j = k ∧ ∀ i, i < j → a.getMsbD i = b.getMsbD i) ∧
    (j ≠ k → equal a b = false)) ∧
  (∀ (w : Nat) [NeZero w] (a b : BitVec w), (equal a b = true ↔ a = b) ∧ equal (copy a) a = true)

/-! ## Decoding and encoding -/

/-- R52, R61 (derived: the order n, z, p is decision D19, the fill of the encoder's ignored bits the spec's and, for
illegal words, the model's own, notes/assumptions/14.md and 8.md): decoding the word of a well-formed instruction
gives it back, every operand at every value. -/
def Obligations.DecodeOfEncodeIsTheInstruction : Prop :=
  ∀ i : Instr, i.wf = true → decode (encode i) = i

/-- R52, R58 (derived: accepting every fill is decision D9, notes/assumptions/8.md): the word of the decoded
instruction agrees with the word on every bit some rule reads, and the decoder only gives well-formed instructions. -/
def Obligations.EncodeOfDecodeAgreesOnReadBits : Prop :=
  ∀ w : Word, (decode w).wf = true ∧
    encode (decode w) &&& (decode w).readMask = w &&& (decode w).readMask

/-- R58 (derived: decision D9, notes/assumptions/8.md): bits no rule reads do not matter. -/
def Obligations.IgnoredBitsDoNotChangeDecoding : Prop :=
  ∀ w w' : Word, w' &&& (decode w).readMask = w &&& (decode w).readMask → decode w' = decode w

/-- R57 (derived: the map's part, with every fill of the ignored bits as decision D9 accepts it,
notes/assumptions/8.md): the opcode map as spec/opcode_table.json gives it, the rows with the more specific mask
first, is total and names the instruction the decoder gives. -/
def Obligations.OpcodeTableNamesTheDecodedInstruction : Prop :=
  ∀ w : Word, tableLookup w = some (decode w).mnemonic

/-- R61 (derived: that n, z, p are bits 11, 10, 9 is decision D19, that every fill of the ignored bits is taken D9,
notes/assumptions/14.md and 8.md): the decoding procedure, opcode by opcode, with the fields as numbers of the word.
-/
def Obligations.DecodeExtractsTheListedFields : Prop :=
  ∀ w : Word,
    (w.toNat / 4096 = 0 → ∃ n z p off9, decode w = .br n z p off9 ∧ n = w.getLsbD 11 ∧ z = w.getLsbD 10 ∧
      p = w.getLsbD 9 ∧ off9.toNat = w.toNat % 512) ∧
    (w.toNat / 4096 = 1 → w.getLsbD 5 = true → ∃ dr sr1 imm5, decode w = .addImm dr sr1 imm5 ∧
      dr.val = w.toNat / 512 % 8 ∧ sr1.val = w.toNat / 64 % 8 ∧ imm5.toNat = w.toNat % 32) ∧
    (w.toNat / 4096 = 1 → w.getLsbD 5 = false → ∃ dr sr1 sr2, decode w = .addReg dr sr1 sr2 ∧
      dr.val = w.toNat / 512 % 8 ∧ sr1.val = w.toNat / 64 % 8 ∧ sr2.val = w.toNat % 8) ∧
    (w.toNat / 4096 = 2 → ∃ dr off9, decode w = .ld dr off9 ∧
      dr.val = w.toNat / 512 % 8 ∧ off9.toNat = w.toNat % 512) ∧
    (w.toNat / 4096 = 3 → ∃ sr off9, decode w = .st sr off9 ∧
      sr.val = w.toNat / 512 % 8 ∧ off9.toNat = w.toNat % 512) ∧
    (w.toNat / 4096 = 5 → w.getLsbD 5 = true → ∃ dr sr1 imm5, decode w = .andImm dr sr1 imm5 ∧
      dr.val = w.toNat / 512 % 8 ∧ sr1.val = w.toNat / 64 % 8 ∧ imm5.toNat = w.toNat % 32) ∧
    (w.toNat / 4096 = 5 → w.getLsbD 5 = false → ∃ dr sr1 sr2, decode w = .andReg dr sr1 sr2 ∧
      dr.val = w.toNat / 512 % 8 ∧ sr1.val = w.toNat / 64 % 8 ∧ sr2.val = w.toNat % 8) ∧
    (w.toNat / 4096 = 9 → ∃ dr sr, decode w = .not dr sr ∧
      dr.val = w.toNat / 512 % 8 ∧ sr.val = w.toNat / 64 % 8) ∧
    (w.toNat / 4096 = 15 → w.toNat % 256 = 0x21 → decode w = .trapOut) ∧
    (w.toNat / 4096 = 15 → w.toNat % 256 = 0x25 → decode w = .trapHalt) ∧
    (w.toNat / 4096 = 15 → w.toNat % 256 ≠ 0x21 → w.toNat % 256 ≠ 0x25 →
      ∃ vect8, decode w = .trapOther vect8 ∧ vect8.toNat = w.toNat % 256) ∧
    (w.toNat / 4096 ∈ [4, 6, 7, 8, 10, 11, 12, 13, 14] →
      decode w ∈ [Instr.illegal4, .illegal6, .illegal7, .illegal8, .illegal10, .illegal11, .illegal12, .illegal13,
        .illegal14] ∧ (decode w).opcode.toNat = w.toNat / 4096)

/-- R52 (derived: examples of the formats, the BR word by decision D19's order n, z, p, notes/assumptions/14.md):
words written out field by field decode to what they stand for. -/
def Obligations.SampleWordsDecodeToTheirInstructions : Prop :=
  decode 0b0000001111111110#16 = .br false false true 0b111111110#9 ∧
  decode 0b0001000010000010#16 = .addReg 0 2 2 ∧
  decode 0b0001000010111101#16 = .addImm 0 2 0b11101#5 ∧
  decode 0b0010000000000010#16 = .ld 0 0b000000010#9 ∧
  decode 0b0011001000000011#16 = .st 1 0b000000011#9 ∧
  decode 0b0101001011000110#16 = .andReg 1 3 6 ∧
  decode 0b0101001001111101#16 = .andImm 1 1 0b11101#5 ∧
  decode 0b1001100101111111#16 = .not 4 5 ∧
  decode 0b1111000000100001#16 = .trapOut ∧
  decode 0b1111000000100101#16 = .trapHalt ∧
  decode 0b1111000000100011#16 = .trapOther 0x23#8 ∧
  decode 0b0110101010111100#16 = .illegal6

/-! ## The cycle -/

/-- R102, R103 (derived: that the error is a next state with `RUN` aborted is decision D10, notes/assumptions/6.md): a
step of a running machine fetches, advances and runs the handler of the decoded word; a `pc` outside 0..49 aborts it
with nothing else changed. -/
def Obligations.StepRunsTheDecodedInstruction : Prop :=
  (∀ (s : State) (i : Instr), s.run = .running → s.pc.toNat < 50 → decode (s.mem.read s.pc.toNat) = i →
    step s = exec i { s with ir := s.mem.read s.pc.toNat, pc := s.pc + 1 } ∧
    (s.pc + 1).toNat = s.pc.toNat + 1) ∧
  (∀ s : State, s.run = .running → 50 ≤ s.pc.toNat →
    step s = .next { s with run := .aborted (.addressError .fetch s.pc) })

/-- R110 (derived: that a step is then the identity is decision D17, notes/assumptions/7.md): a terminal state never
changes again, however many steps follow. -/
def Obligations.TerminalStatesAreFrozen : Prop :=
  ∀ (k : Nat) (s : State), s.run ≠ .running → Sys2Proof.core.run k s = .next s

/-- R59, R61, R100 (derived: errors as next states are decision D10, the identity step of a terminal state D17, the
no-operation of other TRAP vectors D8, notes/assumptions/6.md, 7.md and 9.md): every instruction and every step
answers a next state; the model stops nowhere. -/
def Obligations.EveryInstructionAndStepAnswersANextState : Prop :=
  (∀ (i : Instr) (s : State), ∃ t, exec i s = .next t) ∧ (∀ s : State, ∃ t, step s = .next t)

/-! ## The instructions: result, flags and frame -/

/-- R120 (derived: the reduction of the sum to 16 bits is decision D1, the flags' bits 11, 10, 9 are D19, the error of
the next fetch as a next state D10, notes/assumptions/1.md, 14.md and 6.md): BR adds the signed offset to the advanced
`pc` when a selected condition code is set, checks no range, and changes nothing else; a target outside 0..49 is the
next fetch's error. -/
def Obligations.BranchAddsOffsetExactlyWhenTaken : Prop :=
  (∀ w : Word, w &&& 0xF000#16 = 0x0000#16 →
    decode w = .br (w.getLsbD 11) (w.getLsbD 10) (w.getLsbD 9) (w.extractLsb' 0 9)) ∧
  (∀ (n z p : Bool) (off9 : BitVec 9) (s : State), ∃ t, exec (.br n z p off9) s = .next t ∧
    ((n = true ∧ s.cc.getLsbD 2 = true) ∨ (z = true ∧ s.cc.getLsbD 1 = true) ∨ (p = true ∧ s.cc.getLsbD 0 = true) →
      (t.pc.toNat : Int) = ((s.pc.toNat : Int) + off9.toInt) % 65536) ∧
    (¬((n = true ∧ s.cc.getLsbD 2 = true) ∨ (z = true ∧ s.cc.getLsbD 1 = true) ∨ (p = true ∧ s.cc.getLsbD 0 = true)) →
      t.pc = s.pc) ∧
    SameRegs s t ∧ SameMem s t ∧ t.cc = s.cc ∧ t.ir = s.ir ∧ t.run = s.run ∧ t.out = s.out ∧
    (s.run = .running → 50 ≤ t.pc.toNat →
      step t = .next { t with run := .aborted (.addressError .fetch t.pc) }))

/-- R132 (derived: that every fill of bits 4 and 3 is taken is decision D9, notes/assumptions/8.md): ADD, register
mode. -/
def Obligations.AddRegisterStoresTheModularSum : Prop :=
  (∀ w : Word, w &&& 0xF020#16 = 0x1000#16 → ∃ dr sr1 sr2 : RegIdx, decode w = .addReg dr sr1 sr2 ∧
    dr.val = (w.extractLsb' 9 3).toNat ∧ sr1.val = (w.extractLsb' 6 3).toNat ∧ sr2.val = (w.extractLsb' 0 3).toNat) ∧
  (∀ (dr sr1 sr2 : RegIdx) (s : State), ∃ t, exec (.addReg dr sr1 sr2) s = .next t ∧
    (t.reg dr).toNat = ((s.reg sr1).toNat + (s.reg sr2).toNat) % 65536 ∧
    CcDescribes t.cc (t.reg dr).toInt ∧ OperateFrame dr s t)

/-- R133: ADD, immediate mode. -/
def Obligations.AddImmediateStoresTheModularSum : Prop :=
  (∀ w : Word, w &&& 0xF020#16 = 0x1020#16 → ∃ dr sr1 : RegIdx, decode w = .addImm dr sr1 (w.extractLsb' 0 5) ∧
    dr.val = (w.extractLsb' 9 3).toNat ∧ sr1.val = (w.extractLsb' 6 3).toNat) ∧
  (∀ (dr sr1 : RegIdx) (imm5 : BitVec 5) (s : State), ∃ t, exec (.addImm dr sr1 imm5) s = .next t ∧
    ((t.reg dr).toNat : Int) = ((s.reg sr1).toNat + imm5.toInt) % 65536 ∧
    -16 ≤ imm5.toInt ∧ imm5.toInt ≤ 15 ∧
    CcDescribes t.cc (t.reg dr).toInt ∧ OperateFrame dr s t)

/-- R134 (derived: that AND sets CC is decision D6, that every fill of bits 4 and 3 is taken D9,
notes/assumptions/10.md and 8.md): AND, register mode. -/
def Obligations.AndRegisterStoresTheBitwiseAnd : Prop :=
  (∀ w : Word, w &&& 0xF020#16 = 0x5000#16 → ∃ dr sr1 sr2 : RegIdx, decode w = .andReg dr sr1 sr2 ∧
    dr.val = (w.extractLsb' 9 3).toNat ∧ sr1.val = (w.extractLsb' 6 3).toNat ∧ sr2.val = (w.extractLsb' 0 3).toNat) ∧
  (∀ (dr sr1 sr2 : RegIdx) (s : State), ∃ t, exec (.andReg dr sr1 sr2) s = .next t ∧
    (∀ k, k < 16 → (t.reg dr).getLsbD k = ((s.reg sr1).getLsbD k && (s.reg sr2).getLsbD k)) ∧
    CcDescribes t.cc (t.reg dr).toInt ∧ OperateFrame dr s t)

/-- R135 (derived: that AND sets CC is decision D6, notes/assumptions/10.md): AND, immediate mode; the immediate's bit
4 masks all upper bits. -/
def Obligations.AndImmediateStoresTheBitwiseAnd : Prop :=
  (∀ w : Word, w &&& 0xF020#16 = 0x5020#16 → ∃ dr sr1 : RegIdx, decode w = .andImm dr sr1 (w.extractLsb' 0 5) ∧
    dr.val = (w.extractLsb' 9 3).toNat ∧ sr1.val = (w.extractLsb' 6 3).toNat) ∧
  (∀ (dr sr1 : RegIdx) (imm5 : BitVec 5) (s : State), ∃ t, exec (.andImm dr sr1 imm5) s = .next t ∧
    (∀ k, k < 16 → (t.reg dr).getLsbD k = ((s.reg sr1).getLsbD k && imm5.getLsbD (min k 4))) ∧
    CcDescribes t.cc (t.reg dr).toInt ∧ OperateFrame dr s t)

/-- R136 (derived: the flags from the value are decision D5, that every fill of bits 5 to 0 is taken D9,
notes/assumptions/10.md and 8.md): NOT flips every bit and sets CC from the resulting value. -/
def Obligations.NotStoresTheComplement : Prop :=
  (∀ w : Word, w &&& 0xF000#16 = 0x9000#16 → ∃ dr sr : RegIdx, decode w = .not dr sr ∧
    dr.val = (w.extractLsb' 9 3).toNat ∧ sr.val = (w.extractLsb' 6 3).toNat) ∧
  (∀ (dr sr : RegIdx) (s : State), ∃ t, exec (.not dr sr) s = .next t ∧
    (∀ k, k < 16 → (t.reg dr).getLsbD k = !((s.reg sr).getLsbD k)) ∧
    (t.reg dr).toInt = -(s.reg sr).toInt - 1 ∧
    CcDescribes t.cc (t.reg dr).toInt ∧ OperateFrame dr s t)

/-- R150 (derived: that LD leaves CC is decision D7, the form of the report D10, the 16-bit address D1,
notes/assumptions/10.md, 6.md and 1.md): LD copies the addressed cell or aborts the run, and changes nothing else. -/
def Obligations.LoadCopiesTheAddressedCellOrAborts : Prop :=
  (∀ w : Word, w &&& 0xF000#16 = 0x2000#16 → ∃ dr : RegIdx, decode w = .ld dr (w.extractLsb' 0 9) ∧
    dr.val = (w.extractLsb' 9 3).toNat) ∧
  (∀ (dr : RegIdx) (off9 : BitVec 9) (s : State), (pcRelative s off9).toNat < 50 →
    ∃ t, exec (.ld dr off9) s = .next t ∧ t.reg dr = s.mem.read (pcRelative s off9).toNat ∧
      SameRegsBut dr s t ∧ SameMem s t ∧ t.cc = s.cc ∧ t.pc = s.pc ∧ t.ir = s.ir ∧ t.run = s.run ∧ t.out = s.out) ∧
  (∀ (dr : RegIdx) (off9 : BitVec 9) (s : State), 50 ≤ (pcRelative s off9).toNat →
    ∃ t, exec (.ld dr off9) s = .next t ∧ t.run = .aborted (.addressError .ld (pcRelative s off9)) ∧
      SameRegs s t ∧ SameMem s t ∧ t.cc = s.cc ∧ t.pc = s.pc ∧ t.ir = s.ir ∧ t.out = s.out)

/-- R151 (derived: the 16-bit address is decision D1, the form of the report D10, notes/assumptions/1.md and 6.md): ST
copies the register to the addressed cell or aborts the run, and changes nothing else. -/
def Obligations.StoreWritesOnlyTheAddressedCellOrAborts : Prop :=
  (∀ w : Word, w &&& 0xF000#16 = 0x3000#16 → ∃ sr : RegIdx, decode w = .st sr (w.extractLsb' 0 9) ∧
    sr.val = (w.extractLsb' 9 3).toNat) ∧
  (∀ (sr : RegIdx) (off9 : BitVec 9) (s : State), (pcRelative s off9).toNat < 50 →
    ∃ t, exec (.st sr off9) s = .next t ∧ t.mem.read (pcRelative s off9).toNat = s.reg sr ∧
      SameMemBut (pcRelative s off9).toNat s t ∧
      SameRegs s t ∧ t.cc = s.cc ∧ t.pc = s.pc ∧ t.ir = s.ir ∧ t.run = s.run ∧ t.out = s.out) ∧
  (∀ (sr : RegIdx) (off9 : BitVec 9) (s : State), 50 ≤ (pcRelative s off9).toNat →
    ∃ t, exec (.st sr off9) s = .next t ∧ t.run = .aborted (.addressError .st (pcRelative s off9)) ∧
      SameRegs s t ∧ SameMem s t ∧ t.cc = s.cc ∧ t.pc = s.pc ∧ t.ir = s.ir ∧ t.out = s.out)

/-- R161 (derived: that the code is a number and its glyph the sink's business is decision D13, that every fill of
bits 11 to 8 is taken D9, notes/assumptions/16.md and 8.md): OUT appends the low 8 bits of `x[0]`, goes on running,
and changes nothing else. -/
def Obligations.OutAppendsTheLowByteOfRegisterZero : Prop :=
  (∀ w : Word, w &&& 0xF0FF#16 = 0xF021#16 → decode w = .trapOut) ∧
  (∀ s : State, ∃ t c, exec .trapOut s = .next t ∧ t.out = s.out ++ [c] ∧ c.toNat = (s.reg 0).toNat % 256 ∧
    SameRegs s t ∧ SameMem s t ∧ t.cc = s.cc ∧ t.pc = s.pc ∧ t.ir = s.ir ∧ t.run = s.run)

/-- R162 (derived: that the halted machine's step is the identity is decision D17, that every fill of bits 11 to 8 is
taken D9, notes/assumptions/7.md and 8.md): HALT sets `RUN` to halted and nothing else, emits nothing, no further
instruction is fetched, and no other instruction halts the machine. -/
def Obligations.HaltEndsTheRunAndChangesNothingElse : Prop :=
  (∀ w : Word, w &&& 0xF0FF#16 = 0xF025#16 → decode w = .trapHalt) ∧
  (∀ s : State, ∃ t, exec .trapHalt s = .next t ∧ t.run = .halted ∧
    SameRegs s t ∧ SameMem s t ∧ t.cc = s.cc ∧ t.pc = s.pc ∧ t.ir = s.ir ∧ t.out = s.out ∧
    ∀ k, Sys2Proof.core.run k t = .next t) ∧
  (∀ (i : Instr) (s t : State), exec i s = .next t → s.run ≠ .halted → t.run = .halted → i = .trapHalt)

/-- R163 (derived: the no-operation is decision D8, that every fill of bits 11 to 8 is taken D9,
notes/assumptions/9.md and 8.md): TRAP with another vector changes nothing. -/
def Obligations.OtherTrapVectorsDoNothing : Prop :=
  (∀ w : Word, w &&& 0xF000#16 = 0xF000#16 → w &&& 0x00FF#16 ≠ 0x0021#16 → w &&& 0x00FF#16 ≠ 0x0025#16 →
    decode w = .trapOther (w.extractLsb' 0 8)) ∧
  (∀ (vect8 : BitVec 8) (s : State), exec (.trapOther vect8) s = .next s)

/-- R173 (derived: the abort as a next state is decision D10, the identity step after it D17, notes/assumptions/6.md
and 7.md): a word of an illegal opcode aborts the run at dispatch, reporting the opcode and the already advanced `pc`;
no further instruction runs; and no other instruction aborts with an illegal opcode. -/
def Obligations.IllegalOpcodesAbortWithOpcodeAndAdvancedPc : Prop :=
  (∀ i ∈ [Instr.illegal4, .illegal6, .illegal7, .illegal8, .illegal10, .illegal11, .illegal12, .illegal13, .illegal14],
    ∀ s : State, ∃ t, exec i s = .next t ∧ t.run = .aborted (.illegalOpcode i.opcode s.pc) ∧
      SameRegs s t ∧ SameMem s t ∧ t.cc = s.cc ∧ t.pc = s.pc ∧ t.ir = s.ir ∧ t.out = s.out) ∧
  (∀ s : State, s.run = .running → s.pc.toNat < 50 →
    (s.mem.read s.pc.toNat).extractLsb' 12 4 ∉ [0, 1, 2, 3, 5, 9, 15] →
    ∃ t, step s = .next t ∧
      t.run = .aborted (.illegalOpcode ((s.mem.read s.pc.toNat).extractLsb' 12 4) (s.pc + 1)) ∧
      t.pc = s.pc + 1 ∧ 1 ≤ t.pc.toNat ∧ t.pc.toNat ≤ 50 ∧ t.ir = s.mem.read s.pc.toNat ∧
      ∀ k, Sys2Proof.core.run k t = .next t) ∧
  (∀ (i : Instr) (s t : State) (op : BitVec 4) (pcv : Word), exec i s = .next t → s.run = .running →
    t.run = .aborted (.illegalOpcode op pcv) → i.opcode = op ∧ op ∈ illegalOpcodes ∧ pcv = s.pc)

/-- R130 (derived: that AND and NOT are definers and LD is none is decisions D5 to D7, notes/assumptions/10.md): the
setter's three patterns, by the signed value and by the bits of a word; and across all instructions CC is written from
the value just stored by ADD, AND and NOT and by nothing else. -/
def Obligations.ConditionCodesComeOnlyFromTheSetter : Prop :=
  (∀ (v : Int) (s : State), CcDescribes (setcc v s).cc v ∧
    SameRegs s (setcc v s) ∧ SameMem s (setcc v s) ∧ (setcc v s).pc = s.pc ∧ (setcc v s).ir = s.ir ∧
    (setcc v s).run = s.run ∧ (setcc v s).out = s.out) ∧
  (∀ (w : Word) (s : State), (setcc (signedValue w) s).cc =
    if w.getLsbD 15 then 0b100#3 else if w = 0x0000#16 then 0b010#3 else 0b001#3) ∧
  (∀ (i : Instr) (s t : State), exec i s = .next t →
    (∀ dr, i.defines = some dr → t.cc = (setcc (signedValue (t.reg dr)) s).cc) ∧
    (i.defines = none → t.cc = s.cc))

/-! ## Memory -/

/-- R31, R102, R150, R151 (derived: a 16-bit address is decision D1, the error as a next state D10,
notes/assumptions/1.md and 6.md): the bound comes first; in range a read changes nothing and a write changes one cell;
out of range nothing is read or written and the instruction that made the access aborts under its own site. -/
def Obligations.MemoryPrimitivesCheckTheBoundFirst : Prop :=
  (∀ (site : Site) (a : Word) (s : State),
    (a.toNat ≤ 49 → memRead site a s = .ok (s.mem.read a.toNat)) ∧
    (49 < a.toNat → memRead site a s = .error (.addressError site a))) ∧
  (∀ (site : Site) (a v : Word) (s : State),
    (a.toNat ≤ 49 → ∃ t, memWrite site a v s = .ok t ∧ t.mem.read a.toNat = v ∧ SameMemBut a.toNat s t ∧
      SameRegs s t ∧ t.cc = s.cc ∧ t.pc = s.pc ∧ t.ir = s.ir ∧ t.run = s.run ∧ t.out = s.out) ∧
    (49 < a.toNat → memWrite site a v s = .error (.addressError site a))) ∧
  (∀ s : State, s.run = .running → 49 < s.pc.toNat →
    step s = .next { s with run := .aborted (.addressError .fetch s.pc) }) ∧
  (∀ (r : RegIdx) (off9 : BitVec 9) (s : State), 49 < (pcRelative s off9).toNat →
    exec (.ld r off9) s = .next { s with run := .aborted (.addressError .ld (pcRelative s off9)) } ∧
    exec (.st r off9) s = .next { s with run := .aborted (.addressError .st (pcRelative s off9)) })

/-- R43, R120, R150, R151 (derived: the reduction modulo 65536 is decision D1, the aborts as next states D10,
notes/assumptions/1.md and 6.md): the one PC-relative sum, `(pc + s(pcoffset9)) mod 65536`; LD and ST use it
bounds-checked, a taken BR writes it to `pc` unchecked. -/
def Obligations.EffectiveAddressIsThePcRelativeSum : Prop :=
  (∀ (off9 : BitVec 9) (s : State),
    ((pcRelative s off9).toNat : Int) = ((s.pc.toNat : Int) + (sext16 off9).toInt) % 65536 ∧
    (sext16 off9).toInt = off9.toInt ∧ -256 ≤ off9.toInt ∧ off9.toInt ≤ 255 ∧
    pcRelative s off9 = add16 s.pc (sext16 off9)) ∧
  (∀ w : Word,
    (∀ n z p off9, decode w = .br n z p off9 → off9 = w.extractLsb' 0 9) ∧
    (∀ dr off9, decode w = .ld dr off9 → off9 = w.extractLsb' 0 9) ∧
    (∀ sr off9, decode w = .st sr off9 → off9 = w.extractLsb' 0 9)) ∧
  (∀ (n z p : Bool) (off9 : BitVec 9) (s : State), branchTaken n z p s.cc = true →
    exec (.br n z p off9) s = .next { s with pc := pcRelative s off9 }) ∧
  (∀ (r : RegIdx) (off9 : BitVec 9) (s : State),
    ((pcRelative s off9).toNat < 50 →
      (∃ t, exec (.ld r off9) s = .next t ∧ t.reg r = s.mem.read (pcRelative s off9).toNat) ∧
      (∃ t, exec (.st r off9) s = .next t ∧ t.mem.read (pcRelative s off9).toNat = s.reg r)) ∧
    (50 ≤ (pcRelative s off9).toNat →
      (∃ t, exec (.ld r off9) s = .next t ∧ t.run = .aborted (.addressError .ld (pcRelative s off9))) ∧
      (∃ t, exec (.st r off9) s = .next t ∧ t.run = .aborted (.addressError .st (pcRelative s off9)))))

/-- R44 (derived in the spec; the 16-bit sum is decision D1, notes/assumptions/1.md): from an advanced `pc` the
reduced sum is in range exactly when the exact one is, and then equal to it. -/
def Obligations.ReducedAddressIsInRangeExactlyWhenTheExactSumIs : Prop :=
  ∀ (off9 : BitVec 9) (s : State), 1 ≤ s.pc.toNat → s.pc.toNat ≤ 50 →
    ((pcRelative s off9).toNat < 50 ↔ 0 ≤ (s.pc.toNat : Int) + off9.toInt ∧ (s.pc.toNat : Int) + off9.toInt < 50) ∧
    (0 ≤ (s.pc.toNat : Int) + off9.toInt → ((pcRelative s off9).toNat : Int) = (s.pc.toNat : Int) + off9.toInt) ∧
    ((s.pc.toNat : Int) + off9.toInt < 0 →
      ((pcRelative s off9).toNat : Int) = (s.pc.toNat : Int) + off9.toInt + 65536 ∧ 65281 ≤ (pcRelative s off9).toNat)

/-- R41, R38 (derived in the spec; the store's 16-bit address is decision D1, notes/assumptions/1.md): a store is seen
by the next fetch and the next LD, and does not change the ST in progress. -/
def Obligations.StoreIsSeenByTheNextFetchAndLoad : Prop :=
  ∀ (s : State) (sr : RegIdx) (off9 : BitVec 9), s.run = .running → s.pc.toNat < 50 →
    decode (s.mem.read s.pc.toNat) = .st sr off9 → (s.pc + 1 + sext16 off9).toNat < 50 →
    ∃ t, step s = .next t ∧ t.run = .running ∧ t.ir = s.mem.read s.pc.toNat ∧ t.pc = s.pc + 1 ∧
      t.mem.read (s.pc + 1 + sext16 off9).toNat = s.reg sr ∧
      (off9 = 0 → step t = exec (decode (s.reg sr)) { t with ir := s.reg sr, pc := s.pc + 1 + 1 }) ∧
      (∀ (dr : RegIdx) (off9' : BitVec 9), pcRelative t off9' = s.pc + 1 + sext16 off9 →
        ∃ u, exec (.ld dr off9') t = .next u ∧ u.reg dr = s.reg sr)

/-! ## Rules of the whole machine -/

/-- R12, R19, R22, R32, R122, R106, R150, R151, R162, R173 (derived: a summary of the frames over all instructions; it
rests on decisions D1 for addresses, D10 for the reports, D5 to D7 for the definers of CC and D8 for the other TRAP
vectors, notes/assumptions/1.md, 6.md, 10.md and 9.md): each piece of state has the writers the spec names and no
other. -/
def Obligations.EachPieceOfStateHasOnlyItsNamedWriters : Prop :=
  ∀ (i : Instr) (s t : State), exec i s = .next t →
    (∀ r, t.reg r ≠ s.reg r → i.writesReg = some r) ∧
    (∀ a, t.mem.read a ≠ s.mem.read a →
      ∃ sr off9, i = .st sr off9 ∧ a = (pcRelative s off9).toNat ∧ a < 50 ∧ t.mem.read a = s.reg sr) ∧
    (t.pc ≠ s.pc → ∃ n z p off9, i = .br n z p off9 ∧ branchTaken n z p s.cc = true ∧ t.pc = pcRelative s off9) ∧
    (t.cc ≠ s.cc → ∃ dr, i.defines = some dr) ∧
    t.ir = s.ir ∧
    (t.out ≠ s.out → i = .trapOut) ∧
    (t.run ≠ s.run → (i = .trapHalt ∧ t.run = .halted) ∨
      (∃ r off9, (i = .ld r off9 ∧ t.run = .aborted (.addressError .ld (pcRelative s off9)) ∨
        i = .st r off9 ∧ t.run = .aborted (.addressError .st (pcRelative s off9))) ∧
        50 ≤ (pcRelative s off9).toNat) ∨
      (i.opcode ∈ illegalOpcodes ∧ t.run = .aborted (.illegalOpcode i.opcode s.pc)))

/-- R22 (derived: the sequence is the spec's model of the sink, D13, and a terminal state's step is the identity, D17,
notes/assumptions/16.md and 7.md): whatever runs, the output only grows at its end. -/
def Obligations.OutputOnlyGrowsAtItsEnd : Prop :=
  ∀ (k : Nat) (s t : State), Sys2Proof.core.run k s = .next t → s.out <+: t.out ∧ t.out.length ≤ s.out.length + k

/-- R107, R177 (derived in the spec; the reports are decision D10, their addresses D1, that no other TRAP vector ends
the run D8, notes/assumptions/6.md, 1.md and 9.md): how one cycle of a running machine ends, exactly, with the checks
in their order. -/
def Obligations.CycleEndsTheRunExactlyInTheNamedWays : Prop :=
  ∀ s t : State, s.run = .running → step s = .next t →
    (t.run = .halted ↔ s.pc.toNat < 50 ∧ decode (s.mem.read s.pc.toNat) = .trapHalt) ∧
    (∀ e, t.run = .aborted e ↔
      (50 ≤ s.pc.toNat ∧ e = .addressError .fetch s.pc) ∨
      (s.pc.toNat < 50 ∧ field (s.mem.read s.pc.toNat) 12 4 ∈ illegalOpcodes ∧
        e = .illegalOpcode (field (s.mem.read s.pc.toNat) 12 4) (s.pc + 1)) ∨
      (s.pc.toNat < 50 ∧ ∃ dr off9, decode (s.mem.read s.pc.toNat) = .ld dr off9 ∧
        50 ≤ (s.pc + 1 + sext16 off9).toNat ∧ e = .addressError .ld (s.pc + 1 + sext16 off9)) ∨
      (s.pc.toNat < 50 ∧ ∃ sr off9, decode (s.mem.read s.pc.toNat) = .st sr off9 ∧
        50 ≤ (s.pc + 1 + sext16 off9).toNat ∧ e = .addressError .st (s.pc + 1 + sext16 off9)))

/-- R176 (derived in the spec; the representation is decision D10, notes/assumptions/6.md): what an aborted state
holds. -/
def Obligations.AbortedStateHoldsWhatTheTableSays : Prop :=
  ∀ (s t : State) (e : Error), s.run = .running → step s = .next t → t.run = .aborted e →
    SameRegs s t ∧ SameMem s t ∧ t.cc = s.cc ∧ t.out = s.out ∧
    ((∃ a, e = .addressError .fetch a ∧ t.pc = a ∧ s.pc = a ∧ t.ir = s.ir) ∨
     (∃ op pcv, e = .illegalOpcode op pcv ∧ t.pc = pcv ∧ pcv = s.pc + 1 ∧ t.ir = s.mem.read s.pc.toNat) ∨
     (∃ site ea, (site = .ld ∨ site = .st) ∧ e = .addressError site ea ∧ t.pc = s.pc + 1 ∧
        t.ir = s.mem.read s.pc.toNat))

/-- R108 (derived in the spec): `BRnzp #-1` with some condition code set runs for ever. -/
def Obligations.BranchToItselfNeverEnds : Prop :=
  ∀ s : State, s.run = .running → s.pc.toNat < 50 → s.mem.read s.pc.toNat = 0x0FFF#16 → s.cc ≠ 0b000#3 →
    ∀ k, ∃ t, Sys2Proof.core.run k s = .next t ∧ t.run = .running ∧ t.pc = s.pc

/-- R107, R108 (derived: a bounded run and its report are the model's form of the entry point, and that it leaves a
terminal state alone is decision D17, notes/assumptions/7.md): a bounded run ends in a terminal state the machine
reaches, or reports that its cycles are used up while the machine is still running; more cycles do not change an end.
-/
def Obligations.BoundedRunReportsTheEndOrRunsOutOfCycles : Prop :=
  ∀ (n : Nat) (s : State),
    ((∃ t k, runFor n s = .ended t ∧ t.run ≠ .running ∧ k ≤ n ∧ Sys2Proof.core.run k s = .next t) ∨
     (∃ t, runFor n s = .outOfFuel t ∧ t.run = .running ∧ Sys2Proof.core.run n s = .next t)) ∧
    (∀ t m, runFor n s = .ended t → runFor (n + m) s = .ended t)

/-- R17 (derived: the rule speaks of the reset value, decision D4, notes/assumptions/3.md): what `IR` holds before a
fetch cannot influence a cycle that fetches. -/
def Obligations.OldInstructionRegisterCannotInfluenceACycle : Prop :=
  ∀ (s : State) (v : Word), s.run = .running → s.pc.toNat < 50 → step { s with ir := v } = step s

/-- R22 (derived: "Nothing in the machine reads OUT"; decisions D13 and D17, notes/assumptions/16.md and 7.md): a step
appends the same codes and does everything else the same, whatever the output held. -/
def Obligations.OutputIsNeverReadByTheMachine : Prop :=
  ∀ (s t : State) (o : List Code), step s = .next t →
    ∃ emitted, t.out = s.out ++ emitted ∧ step { s with out := o } = .next { t with out := o ++ emitted }

/-! ## The invariant and the unbounded program counter -/

/-- R15, R20, R111, R176 (derived in the spec, with `CC_RESET`, decision D2, as an argument; the ranges of `pc` are
decision D1, the aborted states D10, the terminal ones' identity step D17, the definers of CC D5 to D7,
notes/assumptions/2.md, 1.md, 6.md, 7.md and 10.md): every step from a state of the invariant, reached or not, gives
one: memory stays canonical, CC legal, `pc` in its two ranges, and a terminal state is one the spec describes. -/
def Obligations.EveryStepKeepsTheInvariant : Prop :=
  ∀ (ccReset : CondCode) (s t : State), s.Inv ccReset → step s = .next t → t.Inv ccReset

/-- R191, R13 (derived: `IR` is decision D4, notes/assumptions/3.md, and `CC_RESET` and `MEM_RESET` are arguments, D2
and D3): construction, for every value of the two open parameters, gives the listed values and meets the invariant; at
the defaults of notes/assumptions/2.md and 4.md it is the reset state. -/
def Obligations.ConstructionGivesTheListedValuesAndTheInvariant : Prop :=
  (∀ (ccReset : CondCode) (memReset : Nat → Word),
    (∀ i : RegIdx, ((State.constructed ccReset memReset).reg i).toNat = i.val) ∧
    (State.constructed ccReset memReset).pc = 0 ∧
    (State.constructed ccReset memReset).ir = 0 ∧
    (State.constructed ccReset memReset).cc = ccReset ∧
    (∀ a, a < 50 → (State.constructed ccReset memReset).mem.read a = memReset a) ∧
    (State.constructed ccReset memReset).run = .running ∧
    (State.constructed ccReset memReset).out = [] ∧
    (State.constructed ccReset memReset).Inv ccReset) ∧
  State.constructed Config.ccReset Config.memReset = State.reset

/-- R14, D1 in detail (derived: the 16-bit `pc` is decision D1, the reports D10, the identity step of a terminal state
D17, notes/assumptions/1.md, 6.md and 7.md): the machine with an unbounded integer `pc` and the model stay in
lock-step for ever; they differ only in the number `pc` and an error report show, and that by its reduction to 16
bits. -/
def Obligations.SixteenBitPcCannotBeToldFromTheUnboundedOne : Prop :=
  ∀ (m : Wide) (s : State), m.Agrees s → -255 ≤ m.pc → m.pc ≤ 305 →
    ∀ k, ∃ t, Sys2Proof.core.run k s = .next t ∧ (Wide.cycles k m).Agrees t ∧
      -255 ≤ (Wide.cycles k m).pc ∧ (Wide.cycles k m).pc ≤ 305

/-! ## Reset, load and observation -/

/-- R13: register i holds i at construction, and a program load, of words or of text, does not change the registers.
-/
def Obligations.RegistersHoldTheirIndexUntilTheRun : Prop :=
  (∀ i : RegIdx, State.reset.reg i = BitVec.ofNat 16 i.val) ∧
  (∀ (ws : List Word) (m m' : Lifecycle), loadWords ws m = .done m' → ∀ i, m'.state.reg i = m.state.reg i) ∧
  (∀ (lines : List String) (m m' : Lifecycle), loadText lines m = .done m' → ∀ i, m'.state.reg i = m.state.reg i)

/-- R192 (derived: only the load's own part of the rule; the launch state has a statement of its own): a load writes
word i to cell i and changes nothing else, whatever the words are. -/
def Obligations.LoadWritesWordsInOrderFromZero : Prop :=
  ∀ (ws : List Word) (m m' : Lifecycle), loadWords ws m = .done m' →
    (∀ (i : Nat) (h : i < ws.length), m'.state.mem.read i = ws[i]) ∧
    (∀ a, ws.length ≤ a → m'.state.mem.read a = m.state.mem.read a) ∧
    SameRegs m.state m'.state ∧ m'.state.pc = m.state.pc ∧ m'.state.ir = m.state.ir ∧ m'.state.cc = m.state.cc ∧
    m'.state.run = m.state.run ∧ m'.state.out = m.state.out

/-- R194 (derived: the reasons in the report are decision D11, and that a list too long fails as such whatever its
strings are is the model's order of checks, notes/assumptions/6.md and 12.md): a load accepts 1 to 49 words, fails on
none and on 50 or more, and so never writes cell 49. -/
def Obligations.LoadAcceptsOneToFortyNineWords : Prop :=
  (∀ (ws : List Word) (s : State),
    (ws.length = 0 → loadWords ws (.constructed s) = .failed (.loadError .empty)) ∧
    (50 ≤ ws.length → loadWords ws (.constructed s) = .failed (.loadError (.tooLong ws.length))) ∧
    (1 ≤ ws.length → ws.length ≤ 49 →
      ∃ t, loadWords ws (.constructed s) = .done (.loaded t) ∧ t.mem.read 49 = s.mem.read 49)) ∧
  (∀ (lines : List String) (s : State),
    (lines.length = 0 → loadText lines (.constructed s) = .failed (.loadError .empty)) ∧
    (50 ≤ lines.length → loadText lines (.constructed s) = .failed (.loadError (.tooLong lines.length))) ∧
    (1 ≤ lines.length → lines.length ≤ 49 → (∀ line ∈ lines, (parseWord line).isSome) →
      ∃ t, loadText lines (.constructed s) = .done (.loaded t) ∧ t.mem.read 49 = s.mem.read 49))

/-- R193, R171, R195 (derived: whitespace is decision D20, the reasons are D11 and their order the model's, the atomic
load is D12, notes/assumptions/13.md, 6.md, 12.md and 15.md): exactly six characters are removed from a string, and
the others stay in their order; it is a word exactly when 16 binary digits are left of it; well-formed strings load as
their words, and the first offending one fails the whole load. -/
def Obligations.TextLoadIsTheWordLoadOfItsDigits : Prop :=
  (∀ line : String, (cleaned line).Sublist line.toList ∧
    ∀ c : Char, (cleaned line).count c =
      if c.toNat ∈ [0x20, 0x09, 0x0A, 0x0D, 0x0B, 0x0C] then 0 else line.toList.count c) ∧
  (∀ (line : String) (w : Word), parseWord line = some w ↔
    (cleaned line).length = 16 ∧ (∀ c ∈ cleaned line, c = '0' ∨ c = '1') ∧
      bits w = (cleaned line).map (fun c => c == '1')) ∧
  (∀ (lines : List String) (ws : List Word) (m : Lifecycle), lines.map parseWord = ws.map some →
    loadText lines m = loadWords ws m) ∧
  (∀ (before after : List String) (line : String) (s : State),
    before.length + 1 + after.length ≤ 49 → (∀ l ∈ before, (parseWord l).isSome) → parseWord line = none →
    loadText (before ++ line :: after) (.constructed s) = .failed (.loadError (.badWord before.length)))

/-- R196 (derived in the spec; the open parameters are arguments, D2 and D3, `IR` is D4, notes/assumptions/2.md to
4.md): the launch state of every accepted program holds the program in its first cells and everything else as
constructed, is running at 0, and meets the invariant; `launch` gives it at the defaults, from the program's text. -/
def Obligations.LaunchStateMeetsTheInvariant : Prop :=
  (∀ (ccReset : CondCode) (memReset : Nat → Word) (ws : List Word) (m : Lifecycle),
    loadWords ws (.constructed (State.constructed ccReset memReset)) = .done m →
    ∃ t, m = .loaded t ∧ t.Inv ccReset ∧ t.run = .running ∧ t.pc = 0 ∧ t.ir = 0 ∧ t.cc = ccReset ∧ t.out = [] ∧
      (∀ i : RegIdx, (t.reg i).toNat = i.val) ∧
      (∀ (i : Nat) (h : i < ws.length), t.mem.read i = ws[i]) ∧
      (∀ a, ws.length ≤ a → a < 50 → t.mem.read a = memReset a)) ∧
  (∀ (lines : List String) (ws : List Word), lines.map parseWord = ws.map some →
    launch lines = loadWords ws (.constructed (State.constructed Config.ccReset Config.memReset)))

/-- R190, R195, R199 (derived: that a second load is not offered and a second call of the entry point does nothing is
decision D17, and the phase as the interface's datum the model's form of the rule, notes/assumptions/7.md and 17.md):
a program is loaded once, into a constructed machine, and runs only after that; in no other phase is a load or a run
offered, no step of a run leads back, and a run that has ended stays as it is. -/
def Obligations.LoadAndRunAreOfferedOnceInOrder : Prop :=
  (∀ (ws : List Word) (m : Lifecycle), loadWords ws m = .notOffered ↔ ∀ s, m ≠ .constructed s) ∧
  (∀ (lines : List String) (m : Lifecycle), loadText lines m = .notOffered ↔ ∀ s, m ≠ .constructed s) ∧
  (∀ (ws : List Word) (m m' : Lifecycle), loadWords ws m = .done m' → ∃ t, m' = .loaded t) ∧
  (∀ (lines : List String) (m m' : Lifecycle), loadText lines m = .done m' → ∃ t, m' = .loaded t) ∧
  (∀ (n : Nat) (m : Lifecycle), execute n m = none ↔ ∃ s, m = .constructed s) ∧
  (∀ (n : Nat) (m m' : Lifecycle), execute n m = some m' → ∃ k t, m' = .started t ∧ k ≤ n ∧
    Sys2Proof.core.run k m.state = .next t ∧ (t.run = .running → k = n)) ∧
  (∀ (n : Nat) (t : State), t.run ≠ .running → execute n (.started t) = some (.started t))

/-- R198, R80 (derived: that RUN and OUT are observed is the spec's model): each accessor returns what its name says,
and what they return determines the state, so equal states are equal data. -/
def Obligations.ObservationDeterminesTheState : Prop :=
  (∀ s : State, (observe s).x.length = 8 ∧ (∀ i : RegIdx, (observe s).x[i.val]? = some (s.reg i)) ∧
    (observe s).cells.length = 50 ∧ (∀ a, a < 50 → (observe s).cells[a]? = some (s.mem.read a)) ∧
    (observe s).pc = s.pc ∧ (observe s).ir = s.ir ∧ (observe s).cc = s.cc ∧ (observe s).run = s.run ∧
    (observe s).out = s.out) ∧
  (∀ s t : State, s.mem.wf → t.mem.wf → observe s = observe t → s = t)
end

