-- ==== Sys2Proof/Laws/BitVector.lean ====
section
/-! SUPPORT. The list of a pattern's bits: its length, its entries, and that it determines the pattern. -/

namespace Sys2Proof.Machine.BitVector

@[simp] theorem bits_length {w : Nat} (v : BitVec w) : (bits v).length = w := by simp [bits]

@[simp] theorem bits_getElem {w : Nat} (v : BitVec w) (i : Nat) (h : i < (bits v).length) :
    (bits v)[i] = v.getMsbD i := by simp [bits]

theorem eq_of_bits_eq {w : Nat} {a b : BitVec w} (h : bits a = bits b) : a = b := by
  refine BitVec.eq_of_getMsbD_eq fun i hi => ?_
  have := congrArg (fun l => l[i]?) h
  simpa [bits, hi] using this

end Sys2Proof.Machine.BitVector
end

