-- ==== Sys2Proof/Laws/Decode.lean ====
section
/-! SUPPORT. The decoder opcode by opcode, so that no proof unfolds its match, and the fields of a word as numbers. -/

namespace Sys2Proof

open Sys2Proof.Machine.BitVector (field regIndex regField)

/-! ## One equation per opcode (R61) -/

variable {w : Word}

theorem decode_op0 (h : opcodeOf w = 0) : decode w = .br w[11] w[10] w[9] (field w 0 9) := by simp [decode, h]

theorem decode_op1_imm (h : opcodeOf w = 1) (hm : w[5] = true) :
    decode w = .addImm (regIndex (field w 9 3)) (regIndex (field w 6 3)) (field w 0 5) := by simp [decode, h, hm]

theorem decode_op1_reg (h : opcodeOf w = 1) (hm : w[5] = false) :
    decode w = .addReg (regIndex (field w 9 3)) (regIndex (field w 6 3)) (regIndex (field w 0 3)) := by
  simp [decode, h, hm]

theorem decode_op2 (h : opcodeOf w = 2) : decode w = .ld (regIndex (field w 9 3)) (field w 0 9) := by simp [decode, h]
theorem decode_op3 (h : opcodeOf w = 3) : decode w = .st (regIndex (field w 9 3)) (field w 0 9) := by simp [decode, h]
theorem decode_op4 (h : opcodeOf w = 4) : decode w = .illegal4 := by simp [decode, h]

theorem decode_op5_imm (h : opcodeOf w = 5) (hm : w[5] = true) :
    decode w = .andImm (regIndex (field w 9 3)) (regIndex (field w 6 3)) (field w 0 5) := by simp [decode, h, hm]

theorem decode_op5_reg (h : opcodeOf w = 5) (hm : w[5] = false) :
    decode w = .andReg (regIndex (field w 9 3)) (regIndex (field w 6 3)) (regIndex (field w 0 3)) := by
  simp [decode, h, hm]

theorem decode_op6 (h : opcodeOf w = 6) : decode w = .illegal6 := by simp [decode, h]
theorem decode_op7 (h : opcodeOf w = 7) : decode w = .illegal7 := by simp [decode, h]
theorem decode_op8 (h : opcodeOf w = 8) : decode w = .illegal8 := by simp [decode, h]

theorem decode_op9 (h : opcodeOf w = 9) :
    decode w = .not (regIndex (field w 9 3)) (regIndex (field w 6 3)) := by simp [decode, h]

theorem decode_op10 (h : opcodeOf w = 10) : decode w = .illegal10 := by simp [decode, h]
theorem decode_op11 (h : opcodeOf w = 11) : decode w = .illegal11 := by simp [decode, h]
theorem decode_op12 (h : opcodeOf w = 12) : decode w = .illegal12 := by simp [decode, h]
theorem decode_op13 (h : opcodeOf w = 13) : decode w = .illegal13 := by simp [decode, h]
theorem decode_op14 (h : opcodeOf w = 14) : decode w = .illegal14 := by simp [decode, h]
theorem decode_op15 (h : opcodeOf w = 15) : decode w = decodeTrap (field w 0 8) := by simp [decode, h]

/-- Everything the vector of TRAP can select (R160). -/
theorem decodeTrap_cases (v : BitVec 8) :
    (v = 0x21#8 ∧ decodeTrap v = .trapOut) ∨ (v = 0x25#8 ∧ decodeTrap v = .trapHalt) ∨
    (v ≠ 0x21#8 ∧ v ≠ 0x25#8 ∧ decodeTrap v = .trapOther v) := by
  unfold decodeTrap
  split
  · exact .inl ⟨‹_›, rfl⟩
  · split
    · exact .inr (.inl ⟨‹_›, rfl⟩)
    · exact .inr (.inr ⟨‹_›, ‹_›, rfl⟩)

/-! ## Fields as numbers -/

theorem opcodeOf_val (w : Word) : (opcodeOf w).val = w.toNat / 4096 := by
  have h := w.isLt
  simp only [opcodeOf, field, BitVec.extractLsb'_toNat, Nat.shiftRight_eq_div_pow]
  omega

theorem field_toNat (w : Word) (lo len : Nat) [NeZero len] : (field w lo len).toNat = w.toNat / 2 ^ lo % 2 ^ len := by
  simp [field, BitVec.extractLsb'_toNat, Nat.shiftRight_eq_div_pow]

/-- The decoded instruction is one of the word's opcode (R57). -/
theorem decode_opcode (w : Word) : (decode w).opcode = field w 12 4 := by
  apply BitVec.eq_of_toNat_eq
  show _ = (opcodeOf w).val
  rcases h : opcodeOf w with ⟨k, hk⟩
  cases hm : w[5] <;> interval_cases k <;> first
    | (rw [decode_op0 h]; rfl) | (rw [decode_op1_imm h hm]; rfl) | (rw [decode_op1_reg h hm]; rfl)
    | (rw [decode_op2 h]; rfl) | (rw [decode_op3 h]; rfl) | (rw [decode_op4 h]; rfl)
    | (rw [decode_op5_imm h hm]; rfl) | (rw [decode_op5_reg h hm]; rfl) | (rw [decode_op6 h]; rfl)
    | (rw [decode_op7 h]; rfl) | (rw [decode_op8 h]; rfl) | (rw [decode_op9 h]; rfl)
    | (rw [decode_op10 h]; rfl) | (rw [decode_op11 h]; rfl) | (rw [decode_op12 h]; rfl)
    | (rw [decode_op13 h]; rfl) | (rw [decode_op14 h]; rfl)
    | (rw [decode_op15 h]
       rcases decodeTrap_cases (field w 0 8) with ⟨-, e⟩ | ⟨-, e⟩ | ⟨-, -, e⟩ <;> rw [e] <;> rfl)

@[simp] theorem regIndex_val (f : BitVec 3) : (regIndex f).val = f.toNat := rfl

@[simp] theorem regIndex_regField (r : RegIdx) : regIndex (regField r) = r := by
  apply Fin.ext; simp [regIndex, regField]

end Sys2Proof
end

