-- ==== Sys2Proof/Laws/State.lean ====
section
/-! SUPPORT. One lemma per field per update of the state, so that no proof unfolds a record update. -/

namespace Sys2Proof.Machine

variable (s : State)

@[simp] theorem State.setReg_x (i : RegIdx) (v : Word) : (s.setReg i v).x = s.x.set i.val v := rfl
@[simp] theorem State.setReg_pc (i : RegIdx) (v : Word) : (s.setReg i v).pc = s.pc := rfl
@[simp] theorem State.setReg_ir (i : RegIdx) (v : Word) : (s.setReg i v).ir = s.ir := rfl
@[simp] theorem State.setReg_cc (i : RegIdx) (v : Word) : (s.setReg i v).cc = s.cc := rfl
@[simp] theorem State.setReg_mem (i : RegIdx) (v : Word) : (s.setReg i v).mem = s.mem := rfl
@[simp] theorem State.setReg_run (i : RegIdx) (v : Word) : (s.setReg i v).run = s.run := rfl
@[simp] theorem State.setReg_out (i : RegIdx) (v : Word) : (s.setReg i v).out = s.out := rfl

@[simp] theorem State.setPc_x (a : Word) : (s.setPc a).x = s.x := rfl
@[simp] theorem State.setPc_pc (a : Word) : (s.setPc a).pc = a := rfl
@[simp] theorem State.setPc_ir (a : Word) : (s.setPc a).ir = s.ir := rfl
@[simp] theorem State.setPc_cc (a : Word) : (s.setPc a).cc = s.cc := rfl
@[simp] theorem State.setPc_mem (a : Word) : (s.setPc a).mem = s.mem := rfl
@[simp] theorem State.setPc_run (a : Word) : (s.setPc a).run = s.run := rfl
@[simp] theorem State.setPc_out (a : Word) : (s.setPc a).out = s.out := rfl
@[simp] theorem State.setPc_reg (a : Word) (r : RegIdx) : (s.setPc a).reg r = s.reg r := rfl

@[simp] theorem State.setIr_x (w : Word) : (s.setIr w).x = s.x := rfl
@[simp] theorem State.setIr_pc (w : Word) : (s.setIr w).pc = s.pc := rfl
@[simp] theorem State.setIr_ir (w : Word) : (s.setIr w).ir = w := rfl
@[simp] theorem State.setIr_cc (w : Word) : (s.setIr w).cc = s.cc := rfl
@[simp] theorem State.setIr_mem (w : Word) : (s.setIr w).mem = s.mem := rfl
@[simp] theorem State.setIr_run (w : Word) : (s.setIr w).run = s.run := rfl
@[simp] theorem State.setIr_out (w : Word) : (s.setIr w).out = s.out := rfl
@[simp] theorem State.setIr_reg (w : Word) (r : RegIdx) : (s.setIr w).reg r = s.reg r := rfl

@[simp] theorem State.setCc_x (c : CondCode) : (s.setCc c).x = s.x := rfl
@[simp] theorem State.setCc_pc (c : CondCode) : (s.setCc c).pc = s.pc := rfl
@[simp] theorem State.setCc_ir (c : CondCode) : (s.setCc c).ir = s.ir := rfl
@[simp] theorem State.setCc_cc (c : CondCode) : (s.setCc c).cc = c := rfl
@[simp] theorem State.setCc_mem (c : CondCode) : (s.setCc c).mem = s.mem := rfl
@[simp] theorem State.setCc_run (c : CondCode) : (s.setCc c).run = s.run := rfl
@[simp] theorem State.setCc_out (c : CondCode) : (s.setCc c).out = s.out := rfl
@[simp] theorem State.setCc_reg (c : CondCode) (r : RegIdx) : (s.setCc c).reg r = s.reg r := rfl

@[simp] theorem State.setMem_x (m : Memory) : (s.setMem m).x = s.x := rfl
@[simp] theorem State.setMem_pc (m : Memory) : (s.setMem m).pc = s.pc := rfl
@[simp] theorem State.setMem_ir (m : Memory) : (s.setMem m).ir = s.ir := rfl
@[simp] theorem State.setMem_cc (m : Memory) : (s.setMem m).cc = s.cc := rfl
@[simp] theorem State.setMem_mem (m : Memory) : (s.setMem m).mem = m := rfl
@[simp] theorem State.setMem_run (m : Memory) : (s.setMem m).run = s.run := rfl
@[simp] theorem State.setMem_out (m : Memory) : (s.setMem m).out = s.out := rfl
@[simp] theorem State.setMem_reg (m : Memory) (r : RegIdx) : (s.setMem m).reg r = s.reg r := rfl

@[simp] theorem State.setRun_x (r : RunState) : (s.setRun r).x = s.x := rfl
@[simp] theorem State.setRun_pc (r : RunState) : (s.setRun r).pc = s.pc := rfl
@[simp] theorem State.setRun_ir (r : RunState) : (s.setRun r).ir = s.ir := rfl
@[simp] theorem State.setRun_cc (r : RunState) : (s.setRun r).cc = s.cc := rfl
@[simp] theorem State.setRun_mem (r : RunState) : (s.setRun r).mem = s.mem := rfl
@[simp] theorem State.setRun_run (r : RunState) : (s.setRun r).run = r := rfl
@[simp] theorem State.setRun_out (r : RunState) : (s.setRun r).out = s.out := rfl
@[simp] theorem State.setRun_reg (r : RunState) (i : RegIdx) : (s.setRun r).reg i = s.reg i := rfl

@[simp] theorem State.emit_x (c : Code) : (s.emit c).x = s.x := rfl
@[simp] theorem State.emit_pc (c : Code) : (s.emit c).pc = s.pc := rfl
@[simp] theorem State.emit_ir (c : Code) : (s.emit c).ir = s.ir := rfl
@[simp] theorem State.emit_cc (c : Code) : (s.emit c).cc = s.cc := rfl
@[simp] theorem State.emit_mem (c : Code) : (s.emit c).mem = s.mem := rfl
@[simp] theorem State.emit_run (c : Code) : (s.emit c).run = s.run := rfl
@[simp] theorem State.emit_out (c : Code) : (s.emit c).out = s.out ++ [c] := rfl
@[simp] theorem State.emit_reg (c : Code) (r : RegIdx) : (s.emit c).reg r = s.reg r := rfl

/-- A register reads what was last written to it. -/
@[simp] theorem State.reg_setReg_same (i : RegIdx) (v : Word) : (s.setReg i v).reg i = v := by
  simp [State.reg]

/-- A register write leaves the other registers alone. -/
theorem State.reg_setReg_other {i r : RegIdx} (h : r ≠ i) (v : Word) : (s.setReg i v).reg r = s.reg r := by
  have hne : i.val ≠ r.val := fun e => h (Fin.ext e.symm)
  simp [State.reg, hne]

/-- Both cases of a register read after a register write. -/
theorem State.reg_setReg (i r : RegIdx) (v : Word) :
    (s.setReg i v).reg r = if r = i then v else s.reg r := by
  by_cases h : r = i
  · subst h; simp
  · simp [h, State.reg_setReg_other s h]

end Sys2Proof.Machine
end

