-- ==== Sys2Proof/Laws/Memory.lean ====
section
/-! SUPPORT. The laws of the memory array: reading after writing, and that every operation keeps the canonical form. -/

namespace Sys2Proof.Machine

theorem Memory.read_nil (a : Nat) : Memory.read [] a = Memory.unlisted a := rfl

theorem Memory.read_cons (c : Cell) (m : Memory) (a : Nat) :
    Memory.read (c :: m) a = if a = c.1 then c.2 else Memory.read m a := by
  obtain ⟨b, v⟩ := c
  by_cases h : a = b
  · simp [Memory.read, h]
  · simp [Memory.read, List.lookup_cons, h, beq_false_of_ne h]

theorem Memory.erase_cons (c : Cell) (m : Memory) (a : Nat) :
    Memory.erase (c :: m) a = if c.1 = a then Memory.erase m a else c :: Memory.erase m a := by
  by_cases h : c.1 = a <;> simp [Memory.erase, h]

/-- An erased address reads as unlisted. -/
theorem Memory.read_erase_same (m : Memory) (a : Nat) : (m.erase a).read a = Memory.unlisted a := by
  induction m with
  | nil => rfl
  | cons c m ih =>
    rw [Memory.erase_cons]
    split
    · exact ih
    · next h => rw [Memory.read_cons, if_neg (Ne.symm h)]; exact ih

theorem Memory.read_erase_other (m : Memory) {a b : Nat} (h : b ≠ a) : (m.erase a).read b = m.read b := by
  induction m with
  | nil => rfl
  | cons c m ih =>
    rw [Memory.erase_cons, Memory.read_cons]
    split
    · next hc => rw [ih, if_neg (by omega)]
    · rw [Memory.read_cons, ih]

theorem Memory.not_mem_erase (m : Memory) (a : Nat) : ∀ c ∈ m.erase a, c.1 ≠ a := by
  intro c hc
  simpa [Memory.erase] using (List.mem_filter.mp hc).2

theorem Memory.read_insert (m : Memory) (a b : Nat) (v : Word) (h : ∀ c ∈ m, c.1 ≠ a) :
    (Memory.insert a v m).read b = if b = a then v else m.read b := by
  induction m with
  | nil => simp [Memory.insert, Memory.read_cons]
  | cons c m ih =>
    have hc : c.1 ≠ a := h c (by simp)
    unfold Memory.insert
    split
    · rw [Memory.read_cons]
    · rw [Memory.read_cons, Memory.read_cons, ih fun d hd => h d (by simp [hd])]
      split <;> split <;> first | rfl | (exfalso; omega)

/-- A cell reads what was last written to it. -/
@[simp] theorem Memory.read_write_same (m : Memory) (a : Nat) (v : Word) : (m.write a v).read a = v := by
  unfold Memory.write
  split
  · next h => rw [Memory.read_erase_same, h]
  · rw [Memory.read_insert _ _ _ _ (m.not_mem_erase a), if_pos rfl]

/-- A write leaves every other cell alone. -/
theorem Memory.read_write_other (m : Memory) {a b : Nat} (h : b ≠ a) (v : Word) :
    (m.write a v).read b = m.read b := by
  unfold Memory.write
  split
  · exact m.read_erase_other h
  · rw [Memory.read_insert _ _ _ _ (m.not_mem_erase a), if_neg h, m.read_erase_other h]

/-- Both cases of a read after a write. -/
theorem Memory.read_write (m : Memory) (a b : Nat) (v : Word) :
    (m.write a v).read b = if b = a then v else m.read b := by
  by_cases h : b = a
  · subst h; simp
  · simp [h, m.read_write_other h]

/-! ## The canonical form -/

theorem Memory.wf_nil : Memory.wf [] := by simp [Memory.wf]

theorem Memory.wf_erase {m : Memory} (h : m.wf) (a : Nat) : (m.erase a).wf :=
  ⟨h.1.filter _, fun c hc => h.2 c (List.mem_filter.mp hc).1⟩

theorem Memory.mem_insert {m : Memory} {a : Nat} {v : Word} {c : Cell} :
    c ∈ Memory.insert a v m ↔ c = (a, v) ∨ c ∈ m := by
  induction m with
  | nil => simp [Memory.insert]
  | cons d m ih =>
    unfold Memory.insert
    split
    · simp
    · simp only [List.mem_cons, ih]; tauto

theorem Memory.wf_insert {m : Memory} (h : m.wf) {a : Nat} (ha : a < Config.memSize) {v : Word}
    (hv : v ≠ Memory.unlisted a) (hn : ∀ c ∈ m, c.1 ≠ a) : (Memory.insert a v m).wf := by
  refine ⟨?_, fun c hc => ?_⟩
  · obtain ⟨hs, -⟩ := h
    induction m with
    | nil => simp [Memory.insert]
    | cons d m ih =>
      have hd : d.1 ≠ a := hn d (by simp)
      obtain ⟨hd1, hd2⟩ := List.pairwise_cons.mp hs
      unfold Memory.insert
      split
      · next hlt =>
        refine List.pairwise_cons.mpr ⟨fun e he => ?_, hs⟩
        rcases List.mem_cons.mp he with rfl | he
        · exact hlt
        · exact lt_trans hlt (hd1 e he)
      · next hlt =>
        refine List.pairwise_cons.mpr ⟨fun e he => ?_, ih (fun c hc => hn c (by simp [hc])) hd2⟩
        rcases Memory.mem_insert.mp he with rfl | he
        · show d.1 < a
          omega
        · exact hd1 e he
  · rcases Memory.mem_insert.mp hc with rfl | hc
    · exact ⟨ha, hv⟩
    · exact h.2 c hc

/-- A write to one of the 50 cells keeps the canonical form. -/
theorem Memory.wf_write {m : Memory} (h : m.wf) {a : Nat} (ha : a < Config.memSize) (v : Word) :
    (m.write a v).wf := by
  unfold Memory.write
  split
  · exact Memory.wf_erase h a
  · next hv => exact Memory.wf_insert (Memory.wf_erase h a) ha hv (m.not_mem_erase a)

/-- The reset memory is in canonical form. -/
theorem State.reset_mem_wf : State.reset.mem.wf := Memory.wf_nil

end Sys2Proof.Machine
end

