-- ==== Sys2Proof/Laws/Load.lean ====
section
/-! SUPPORT. What a load and the execution entry can do, each said once, and what the words written read as. -/

namespace Sys2Proof.Machine

@[simp] theorem Lifecycle.state_constructed (s : State) : (Lifecycle.constructed s).state = s := rfl
@[simp] theorem Lifecycle.state_loaded (s : State) : (Lifecycle.loaded s).state = s := rfl
@[simp] theorem Lifecycle.state_started (s : State) : (Lifecycle.started s).state = s := rfl

@[simp] theorem State.withProgram_mem (ws : List Word) (s : State) :
    (s.withProgram ws).mem = Memory.writeFrom 0 ws s.mem := rfl
@[simp] theorem State.withProgram_x (ws : List Word) (s : State) : (s.withProgram ws).x = s.x := rfl
@[simp] theorem State.withProgram_reg (ws : List Word) (s : State) (r : RegIdx) :
    (s.withProgram ws).reg r = s.reg r := rfl
@[simp] theorem State.withProgram_pc (ws : List Word) (s : State) : (s.withProgram ws).pc = s.pc := rfl
@[simp] theorem State.withProgram_ir (ws : List Word) (s : State) : (s.withProgram ws).ir = s.ir := rfl
@[simp] theorem State.withProgram_cc (ws : List Word) (s : State) : (s.withProgram ws).cc = s.cc := rfl
@[simp] theorem State.withProgram_run (ws : List Word) (s : State) : (s.withProgram ws).run = s.run := rfl
@[simp] theorem State.withProgram_out (ws : List Word) (s : State) : (s.withProgram ws).out = s.out := rfl

/-! ## The words written -/

/-- Writing from `k` on leaves every address before `k` and behind the last word alone. -/
theorem Memory.read_writeFrom_other (ws : List Word) (k : Nat) (m : Memory) {a : Nat}
    (h : a < k ∨ k + ws.length ≤ a) : (Memory.writeFrom k ws m).read a = m.read a := by
  induction ws generalizing k m with
  | nil => rfl
  | cons w ws ih =>
    simp only [List.length_cons] at h
    rw [Memory.writeFrom, ih _ _ (by omega), Memory.read_write_other _ (by omega)]

/-- Writing from `k` on puts word `i` at `k + i`. -/
theorem Memory.read_writeFrom (ws : List Word) (k : Nat) (m : Memory) {i : Nat} (h : i < ws.length) :
    (Memory.writeFrom k ws m).read (k + i) = ws[i] := by
  induction ws generalizing k m i with
  | nil => simp at h
  | cons w ws ih =>
    cases i with
    | zero => rw [Memory.writeFrom, Memory.read_writeFrom_other _ _ _ (by omega)]; simp
    | succ i =>
      have := ih (k + 1) (m.write k w) (i := i) (by simpa using h)
      rwa [show k + 1 + i = k + (i + 1) by omega] at this

/-- Words within the 50 cells keep the canonical form. -/
theorem Memory.wf_writeFrom (ws : List Word) (k : Nat) {m : Memory} (h : m.wf) (hk : k + ws.length ≤ 50) :
    (Memory.writeFrom k ws m).wf := by
  induction ws generalizing k m with
  | nil => exact h
  | cons w ws ih =>
    simp only [List.length_cons] at hk
    exact ih _ (Memory.wf_write h (show k < 50 by omega) w) (by omega)

/-! ## The load -/

theorem countError_none {n : Nat} : countError n = none ↔ 1 ≤ n ∧ n ≤ 49 := by
  unfold countError Config.loadMax
  split
  · simp; omega
  · split
    · simp; omega
    · simp; omega

/-- Everything a load of words can do. -/
theorem loadWords_cases (ws : List Word) (m : Lifecycle) :
    (∃ s, m = .constructed s ∧ 1 ≤ ws.length ∧ ws.length ≤ 49 ∧
      loadWords ws m = .done (.loaded (s.withProgram ws))) ∨
    (∃ s reason, m = .constructed s ∧ countError ws.length = some reason ∧
      loadWords ws m = .failed (.loadError reason)) ∨
    ((∀ s, m ≠ .constructed s) ∧ loadWords ws m = .notOffered) := by
  cases m with
  | constructed s =>
    cases h : countError ws.length with
    | none => exact .inl ⟨s, rfl, (countError_none.mp h).1, (countError_none.mp h).2, by simp [loadWords, h]⟩
    | some reason => exact .inr (.inl ⟨s, reason, rfl, rfl, by simp [loadWords, h]⟩)
  | loaded s => exact .inr (.inr ⟨by simp, rfl⟩)
  | started s => exact .inr (.inr ⟨by simp, rfl⟩)

/-- Everything a load of strings can do: it fails, is not offered, or is a load of words. -/
theorem loadText_cases (lines : List String) (m : Lifecycle) :
    (∃ s reason, m = .constructed s ∧ loadText lines m = .failed (.loadError reason)) ∨
    (∃ s ws, m = .constructed s ∧ parseWords 0 lines = .ok ws ∧ loadText lines m = loadWords ws m) ∨
    ((∀ s, m ≠ .constructed s) ∧ loadText lines m = .notOffered) := by
  cases m with
  | constructed s =>
    cases h : countError lines.length with
    | some reason => exact .inl ⟨s, reason, rfl, by simp [loadText, h]⟩
    | none =>
      cases hp : parseWords 0 lines with
      | error reason => exact .inl ⟨s, reason, rfl, by simp [loadText, h, hp]⟩
      | ok ws => exact .inr (.inl ⟨s, ws, rfl, rfl, by simp [loadText, h, hp]⟩)
  | loaded s => exact .inr (.inr ⟨by simp, rfl⟩)
  | started s => exact .inr (.inr ⟨by simp, rfl⟩)

/-! ## The execution entry -/

/-- Everything the execution entry can do. -/
theorem execute_cases (n : Nat) (m : Lifecycle) :
    (∃ s, m = .constructed s ∧ execute n m = none) ∨
    ((∀ s, m ≠ .constructed s) ∧ execute n m = (runFor n m.state).state.map .started) := by
  cases m with
  | constructed s => exact .inl ⟨s, rfl, rfl⟩
  | loaded s => exact .inr ⟨by simp, rfl⟩
  | started s => exact .inr ⟨by simp, rfl⟩

end Sys2Proof.Machine
end

