-- ==== Sys2Proof/Laws/Ops.lean ====
section
/-! SUPPORT. One lemma for each shared operation that says once everything it can do; proofs cite it instead of
unfolding the operation. -/

namespace Sys2Proof.Machine

open Sys2Proof.Machine.BitVector (add16 sext16)

/-! ## Arithmetic -/

/-- The spec's sum through the signed views is the 16-bit sum. -/
theorem add16_eq (a b : Word) : add16 a b = a + b := by
  unfold BitVector.add16 BitVector.add BitVector.setSignedValue BitVector.signedValue
  rw [BitVec.ofInt_add, BitVec.ofInt_toInt, BitVec.ofInt_toInt]

theorem pcRelative_eq (s : State) (off9 : BitVec 9) : pcRelative s off9 = s.pc + sext16 off9 := add16_eq _ _

/-! ## The memory primitives -/

theorem memRead_cases {site : Site} {a : Word} {s : State} {r : Except Error Word} (h : memRead site a s = r) :
    (a.toNat < 50 ∧ r = .ok (s.mem.read a.toNat)) ∨ (50 ≤ a.toNat ∧ r = .error (.addressError site a)) := by
  unfold memRead Config.memSize at h
  split at h
  · exact .inl ⟨‹_›, h.symm⟩
  · exact .inr ⟨by omega, h.symm⟩

theorem memRead_ok {site : Site} {a : Word} {s : State} (h : a.toNat < 50) :
    memRead site a s = .ok (s.mem.read a.toNat) := if_pos h

theorem memRead_error {site : Site} {a : Word} {s : State} (h : 50 ≤ a.toNat) :
    memRead site a s = .error (.addressError site a) := if_neg (Nat.not_lt.mpr h)

theorem memWrite_ok {site : Site} {a v : Word} {s : State} (h : a.toNat < 50) :
    memWrite site a v s = .ok (s.setMem (s.mem.write a.toNat v)) := if_pos h

theorem memWrite_error {site : Site} {a v : Word} {s : State} (h : 50 ≤ a.toNat) :
    memWrite site a v s = .error (.addressError site a) := if_neg (Nat.not_lt.mpr h)

theorem fetch_ok {s : State} (h : s.pc.toNat < 50) : fetch s = .ok (s.setIr (s.mem.read s.pc.toNat)) := by
  simp [fetch, memRead_ok h]

theorem fetch_error {s : State} (h : 50 ≤ s.pc.toNat) : fetch s = .error (.addressError .fetch s.pc) := by
  simp [fetch, memRead_error h]

/-! ## Taking a fatal error writes `RUN` and nothing else -/

@[simp] theorem raise_run (e : Error) (s : State) : (raise e s).run = .aborted e := rfl
@[simp] theorem raise_x (e : Error) (s : State) : (raise e s).x = s.x := rfl
@[simp] theorem raise_pc (e : Error) (s : State) : (raise e s).pc = s.pc := rfl
@[simp] theorem raise_ir (e : Error) (s : State) : (raise e s).ir = s.ir := rfl
@[simp] theorem raise_cc (e : Error) (s : State) : (raise e s).cc = s.cc := rfl
@[simp] theorem raise_mem (e : Error) (s : State) : (raise e s).mem = s.mem := rfl
@[simp] theorem raise_out (e : Error) (s : State) : (raise e s).out = s.out := rfl
@[simp] theorem raise_reg (e : Error) (s : State) (r : RegIdx) : (raise e s).reg r = s.reg r := rfl

/-! ## The condition codes and the definers' common end -/

@[simp] theorem setcc_cc (v : Int) (s : State) : (setcc v s).cc = ccOf v := rfl
@[simp] theorem setcc_x (v : Int) (s : State) : (setcc v s).x = s.x := rfl
@[simp] theorem setcc_pc (v : Int) (s : State) : (setcc v s).pc = s.pc := rfl
@[simp] theorem setcc_ir (v : Int) (s : State) : (setcc v s).ir = s.ir := rfl
@[simp] theorem setcc_mem (v : Int) (s : State) : (setcc v s).mem = s.mem := rfl
@[simp] theorem setcc_run (v : Int) (s : State) : (setcc v s).run = s.run := rfl
@[simp] theorem setcc_out (v : Int) (s : State) : (setcc v s).out = s.out := rfl
@[simp] theorem setcc_reg (v : Int) (s : State) (r : RegIdx) : (setcc v s).reg r = s.reg r := rfl

/-- The condition codes of a definer are those of the value it stores. -/
@[simp] theorem define_cc (dr : RegIdx) (r : Word) (s : State) : (define dr r s).cc = ccOf r.toInt := by
  simp [define, BitVector.signedValue]

@[simp] theorem define_reg_same (dr : RegIdx) (r : Word) (s : State) : (define dr r s).reg dr = r := by
  simp [define]

theorem define_reg_other {dr r : RegIdx} (h : r ≠ dr) (v : Word) (s : State) :
    (define dr v s).reg r = s.reg r := by
  simp [define, State.reg_setReg_other s h]

@[simp] theorem define_x (dr : RegIdx) (r : Word) (s : State) : (define dr r s).x = s.x.set dr.val r := rfl
@[simp] theorem define_pc (dr : RegIdx) (r : Word) (s : State) : (define dr r s).pc = s.pc := rfl
@[simp] theorem define_ir (dr : RegIdx) (r : Word) (s : State) : (define dr r s).ir = s.ir := rfl
@[simp] theorem define_mem (dr : RegIdx) (r : Word) (s : State) : (define dr r s).mem = s.mem := rfl
@[simp] theorem define_run (dr : RegIdx) (r : Word) (s : State) : (define dr r s).run = s.run := rfl
@[simp] theorem define_out (dr : RegIdx) (r : Word) (s : State) : (define dr r s).out = s.out := rfl

/-- A condition-code pattern written by `setcc` is one of the three one-hot ones. -/
theorem ccOf_cases (v : Int) : ccOf v = 0b100#3 ∨ ccOf v = 0b010#3 ∨ ccOf v = 0b001#3 := by
  unfold ccOf; split
  · exact .inl rfl
  · split
    · exact .inr (.inl rfl)
    · exact .inr (.inr rfl)

/-! ## The handlers that can end in two ways -/

/-- Everything a BR can do. -/
theorem execBr_cases (n z p : Bool) (off9 : BitVec 9) (s : State) :
    (branchTaken n z p s.cc = true ∧ execBr n z p off9 s = .next (s.setPc (pcRelative s off9))) ∨
    (branchTaken n z p s.cc = false ∧ execBr n z p off9 s = .next s) := by
  unfold execBr; split <;> simp_all

/-- Everything a LD can do. -/
theorem execLd_cases (dr : RegIdx) (off9 : BitVec 9) (s : State) :
    ((pcRelative s off9).toNat < 50 ∧
      execLd dr off9 s = .next (s.setReg dr (s.mem.read (pcRelative s off9).toNat))) ∨
    (50 ≤ (pcRelative s off9).toNat ∧
      execLd dr off9 s = .next (raise (.addressError .ld (pcRelative s off9)) s)) := by
  rcases Nat.lt_or_ge (pcRelative s off9).toNat 50 with h | h
  · exact .inl ⟨h, by simp only [execLd, memRead_ok h]⟩
  · exact .inr ⟨h, by simp only [execLd, memRead_error h]⟩

/-- Everything a ST can do. -/
theorem execSt_cases (sr : RegIdx) (off9 : BitVec 9) (s : State) :
    ((pcRelative s off9).toNat < 50 ∧
      execSt sr off9 s = .next (s.setMem (s.mem.write (pcRelative s off9).toNat (s.reg sr)))) ∨
    (50 ≤ (pcRelative s off9).toNat ∧
      execSt sr off9 s = .next (raise (.addressError .st (pcRelative s off9)) s)) := by
  rcases Nat.lt_or_ge (pcRelative s off9).toNat 50 with h | h
  · exact .inl ⟨h, by simp only [execSt, memWrite_ok h]⟩
  · exact .inr ⟨h, by simp only [execSt, memWrite_error h]⟩

end Sys2Proof.Machine
end

