-- ==== Sys2Proof/Laws/PerInstr.lean ====
section
/-! SUPPORT. Facts about every instruction as syntax, one lemma per constructor. -/

namespace Sys2Proof.Laws.EncodedOpcode

/-- The top four bits of an instruction's word are its opcode (R51, R57). -/
def Statement (i : Instr) : Prop := (encode i) >>> 12 = i.opcode.setWidth 16

theorem br (n z p : Bool) (off9 : BitVec 9) : Statement (.br n z p off9) := by
  apply BitVec.eq_of_getLsbD_eq
  intro i hi
  simp only [encode, Instr.opcode, BitVec.getLsbD_ushiftRight, BitVec.getLsbD_append]
  interval_cases i <;> simp

theorem addReg (dr sr1 sr2 : RegIdx) : Statement (.addReg dr sr1 sr2) := by
  apply BitVec.eq_of_getLsbD_eq
  intro i hi
  simp only [encode, Instr.opcode, BitVec.getLsbD_ushiftRight, BitVec.getLsbD_append]
  interval_cases i <;> simp

theorem addImm (dr sr1 : RegIdx) (imm5 : BitVec 5) : Statement (.addImm dr sr1 imm5) := by
  apply BitVec.eq_of_getLsbD_eq
  intro i hi
  simp only [encode, Instr.opcode, BitVec.getLsbD_ushiftRight, BitVec.getLsbD_append]
  interval_cases i <;> simp

theorem ld (dr : RegIdx) (off9 : BitVec 9) : Statement (.ld dr off9) := by
  apply BitVec.eq_of_getLsbD_eq
  intro i hi
  simp only [encode, Instr.opcode, BitVec.getLsbD_ushiftRight, BitVec.getLsbD_append]
  interval_cases i <;> simp

theorem st (sr : RegIdx) (off9 : BitVec 9) : Statement (.st sr off9) := by
  apply BitVec.eq_of_getLsbD_eq
  intro i hi
  simp only [encode, Instr.opcode, BitVec.getLsbD_ushiftRight, BitVec.getLsbD_append]
  interval_cases i <;> simp

theorem andReg (dr sr1 sr2 : RegIdx) : Statement (.andReg dr sr1 sr2) := by
  apply BitVec.eq_of_getLsbD_eq
  intro i hi
  simp only [encode, Instr.opcode, BitVec.getLsbD_ushiftRight, BitVec.getLsbD_append]
  interval_cases i <;> simp

theorem andImm (dr sr1 : RegIdx) (imm5 : BitVec 5) : Statement (.andImm dr sr1 imm5) := by
  apply BitVec.eq_of_getLsbD_eq
  intro i hi
  simp only [encode, Instr.opcode, BitVec.getLsbD_ushiftRight, BitVec.getLsbD_append]
  interval_cases i <;> simp

theorem not (dr sr : RegIdx) : Statement (.not dr sr) := by
  apply BitVec.eq_of_getLsbD_eq
  intro i hi
  simp only [encode, Instr.opcode, BitVec.getLsbD_ushiftRight, BitVec.getLsbD_append]
  interval_cases i <;> simp

theorem trapOut : Statement .trapOut := by
  unfold Statement; decide

theorem trapHalt : Statement .trapHalt := by
  unfold Statement; decide

theorem trapOther (vect8 : BitVec 8) : Statement (.trapOther vect8) := by
  apply BitVec.eq_of_getLsbD_eq
  intro i hi
  simp only [encode, Instr.opcode, BitVec.getLsbD_ushiftRight, BitVec.getLsbD_append]
  interval_cases i <;> simp

theorem illegal4 : Statement .illegal4 := by
  unfold Statement; decide

theorem illegal6 : Statement .illegal6 := by
  unfold Statement; decide

theorem illegal7 : Statement .illegal7 := by
  unfold Statement; decide

theorem illegal8 : Statement .illegal8 := by
  unfold Statement; decide

theorem illegal10 : Statement .illegal10 := by
  unfold Statement; decide

theorem illegal11 : Statement .illegal11 := by
  unfold Statement; decide

theorem illegal12 : Statement .illegal12 := by
  unfold Statement; decide

theorem illegal13 : Statement .illegal13 := by
  unfold Statement; decide

theorem illegal14 : Statement .illegal14 := by
  unfold Statement; decide

end Sys2Proof.Laws.EncodedOpcode
end

