-- ==== Sys2Proof/Laws/Step.lean ====
section
/-! SUPPORT. What one step can do, said once: the cases of a cycle, and a run of several steps one step at a time. -/

namespace Sys2Proof.Machine

/-- Everything a step can do: a cycle's handler after fetch and advance, a fetch error, or nothing in a terminal state. -/
theorem step_cases (s : State) :
    (s.run = .running ∧ s.pc.toNat < 50 ∧
      step s = exec (decode (s.mem.read s.pc.toNat)) ((s.setIr (s.mem.read s.pc.toNat)).setPc (s.pc + 1))) ∨
    (s.run = .running ∧ 50 ≤ s.pc.toNat ∧ step s = .next (raise (.addressError .fetch s.pc) s)) ∨
    (s.run ≠ .running ∧ step s = .next s) := by
  cases hr : s.run with
  | running =>
    rcases Nat.lt_or_ge s.pc.toNat 50 with h | h
    · exact .inl ⟨rfl, h, by simp [step, hr, fetch_ok h, advance]⟩
    · exact .inr (.inl ⟨rfl, h, by simp [step, hr, fetch_error h]⟩)
  | halted => exact .inr (.inr ⟨by simp, by simp [step, hr]⟩)
  | aborted e => exact .inr (.inr ⟨by simp, by simp [step, hr]⟩)

/-- The first of several steps. -/
theorem core_run_succ {s t : State} (k : Nat) (h : step s = .next t) :
    Sys2Proof.core.run (k + 1) s = Sys2Proof.core.run k t := by
  have hs : Sys2Proof.core.step s = .next t := h
  simp only [Host.Core.run, hs]

theorem core_run_zero (s : State) : Sys2Proof.core.run 0 s = .next s := rfl

end Sys2Proof.Machine
end

