-- ==== Sys2Proof/Tests/Slice0.lean ====
section
/-! SUPPORT. The model's own tests, expected values from spec/95_test_vectors.md and the examples of the rules, and for
every statement with hypotheses a witness that meets them (last part). -/

namespace Sys2Proof.Tests.Slice0

open Sys2Proof Sys2Proof.Machine
open Sys2Proof.Machine.BitVector

/-- The reset state with `pc` at `a` and the word `w` in cell `a`. -/
def stateAt (a w : Word) : State := (State.reset.setPc a).setMem (State.reset.mem.write a.toNat w)

/-- The next state of an outcome, if it is one. -/
def nextOf (o : Host.Outcome State Fault Refusal) : Option State :=
  match o with
  | .next t => some t
  | .fault _ => none
  | .refused _ => none

/-- The state after one step. -/
def after (s : State) : Option State := nextOf (step s)

/-! ## Well-formedness refuses the ill-formed terms -/

theorem test_wf_refuses_trapOther_out : (Instr.trapOther 0x21#8).wf = false := by decide
theorem test_wf_refuses_trapOther_halt : (Instr.trapOther 0x25#8).wf = false := by decide
theorem test_wf_accepts_other_vectors : (Instr.trapOther 0x20#8).wf = true ∧ (Instr.trapOther 0x26#8).wf = true := by decide

/-! ## Decoding: a word for every constructor, written out from the formats of 30_encoding.md R52 -/

/-- `BRp #-2` (R120). -/
theorem test_decode_br : decode 0b0000001111111110#16 = .br false false true 0b111111110#9 := by decide
/-- `BRn #5`: source bit 0 of nzp is `IR[11]` (R56, V-BR-M). -/
theorem test_decode_br_n : decode 0b0000100000000101#16 = .br true false false 5#9 := by decide
/-- `ADD R0, R1, R2` with ignored bits 11 (R132). -/
theorem test_decode_addReg : decode 0b0001000001011010#16 = .addReg 0 1 2 := by decide
/-- `ADD R0, R2, #-3` (R133). -/
theorem test_decode_addImm : decode 0b0001000010111101#16 = .addImm 0 2 0b11101#5 := by decide
/-- `LD R7, #-50` (V-LD-5). -/
theorem test_decode_ld : decode 0b0010111111001110#16 = .ld 7 0b111001110#9 := by decide
/-- `ST R5, #48` (V-ST-1). -/
theorem test_decode_st : decode 0b0011101000110000#16 = .st 5 0b000110000#9 := by decide
/-- `AND R1, R3, R6` (R134). -/
theorem test_decode_andReg : decode 0b0101001011000110#16 = .andReg 1 3 6 := by decide
/-- `AND R3, R3, #-16` (V-AND-5). -/
theorem test_decode_andImm : decode 0b0101011011110000#16 = .andImm 3 3 0b10000#5 := by decide
/-- `NOT R4, R5` with ignored bits 000000 (V-NOT-2). -/
theorem test_decode_not : decode 0b1001100101000000#16 = .not 4 5 := by decide
/-- TRAP x21 with ignored bits 1111 (V-TR-2). -/
theorem test_decode_trapOut : decode 0b1111111100100001#16 = .trapOut := by decide
/-- TRAP x25 with ignored bits 1010 (V-TR-5). -/
theorem test_decode_trapHalt : decode 0b1111101000100101#16 = .trapHalt := by decide
/-- TRAP x23 (V-TR-10). -/
theorem test_decode_trapOther : decode 0b1111000000100011#16 = .trapOther 0x23#8 := by decide
theorem test_decode_illegal4 : decode 0x4000#16 = .illegal4 := by decide
theorem test_decode_illegal6 : decode 0x6FFF#16 = .illegal6 := by decide
theorem test_decode_illegal7 : decode 0x7123#16 = .illegal7 := by decide
theorem test_decode_illegal8 : decode 0x8000#16 = .illegal8 := by decide
theorem test_decode_illegal10 : decode 0xA000#16 = .illegal10 := by decide
theorem test_decode_illegal11 : decode 0xB000#16 = .illegal11 := by decide
theorem test_decode_illegal12 : decode 0xC1C0#16 = .illegal12 := by decide
theorem test_decode_illegal13 : decode 0xD000#16 = .illegal13 := by decide
theorem test_decode_illegal14 : decode 0xE000#16 = .illegal14 := by decide

/-- The canonical words of R63's table. -/
theorem test_encode_canonical :
    encode (.not 4 5) = 0x997F#16 ∧ encode .trapHalt = 0xF025#16 ∧ encode (.addImm 0 2 0b11101#5) = 0x10BD#16 ∧
    encode (.br false false false 0#9) = 0x0000#16 ∧ encode (.addReg 0 2 2) = 0x1082#16 := by decide

/-! ## One step of every instruction (95_test_vectors.md) -/

/-- V-ADD-2: doubling overflows; destination and both sources are one register. -/
theorem test_addReg_wraps : (after ((stateAt 0 0x1259).setReg 1 0x7FFF)).map
    (fun t => (t.reg 1, t.cc, t.pc, t.ir)) = some (0xFFFE#16, 0b100#3, 1#16, 0x1259#16) := by decide
/-- V-ADD-5: 0x8000 + 0x8000 is zero. -/
theorem test_addReg_zero : (after (((stateAt 0 0x1042).setReg 1 0x8000).setReg 2 0x8000)).map
    (fun t => (t.reg 0, t.cc)) = some (0#16, 0b010#3) := by decide
/-- V-ADD-12. -/
theorem test_addImm_negative : (after (stateAt 0 0x10BD)).map
    (fun t => (t.reg 0, t.reg 2, t.cc)) = some (0xFFFF#16, 2#16, 0b100#3) := by decide
/-- V-ADD-3: the stored result, not the sum, sets CC. -/
theorem test_addImm_overflow : (after ((stateAt 0 0x1261).setReg 1 0x7FFF)).map
    (fun t => (t.reg 1, t.cc)) = some (0x8000#16, 0b100#3) := by decide
/-- V-AND-6. -/
theorem test_andReg_ignored_bits : (after (((stateAt 0 0x505A).setReg 1 0xF0F0).setReg 2 0xFF00)).map
    (fun t => (t.reg 0, t.cc)) = some (0xF000#16, 0b100#3) := by decide
/-- V-AND-5: the immediate is sign-extended. -/
theorem test_andImm_sign_extends : (after ((stateAt 0 0x56F0).setReg 3 0xABCD)).map
    (fun t => (t.reg 3, t.cc)) = some (0xABC0#16, 0b100#3) := by decide
/-- V-AND-7: 6 AND -3 is 4 (C2). -/
theorem test_andImm_example : (after ((stateAt 0 0x527D).setReg 1 6)).map
    (fun t => (t.reg 1, t.cc)) = some (4#16, 0b001#3) := by decide
/-- V-NOT-7: CC from the value, not from the index. -/
theorem test_not_positive : (after ((stateAt 0 0x907F).setReg 1 0xFFFE)).map
    (fun t => (t.reg 0, t.reg 1, t.cc)) = some (1#16, 0xFFFE#16, 0b001#3) := by decide
/-- V-NOT-3: in place, result zero. -/
theorem test_not_zero : (after ((stateAt 0 0x903F).setReg 0 0xFFFF)).map
    (fun t => (t.reg 0, t.cc)) = some (0#16, 0b010#3) := by decide
/-- V-BR-4: a negative target is stored modulo 2^16, unchecked. -/
theorem test_br_taken_below_zero : (after ((stateAt 49 0x0F00).setCc 0b010)).map
    (fun t => (t.pc, t.cc, t.run)) = some (65330#16, 0b010#3, .running) := by decide
/-- V-BR-2: BRp with CC zero is not taken. -/
theorem test_br_not_taken : (after ((stateAt 1 0x03FE).setCc 0b010)).map (fun t => t.pc) = some 2#16 := by decide
/-- V-LD-1: cell 49 is loaded and CC is not touched. -/
theorem test_ld_top_of_memory : (after ((stateAt 0 0x2030).setMem [(0, 0x2030#16), (49, 0xBEEF#16)])).map
    (fun t => (t.reg 0, t.cc, t.pc)) = some (0xBEEF#16, 0b000#3, 1#16) := by decide
/-- V-LD-7. -/
theorem test_ld_below_zero : (after (stateAt 20 0x2100)).map (fun t => (t.run, t.pc, t.ir, t.reg 0)) =
    some (.aborted (.addressError .ld 65301#16), 21#16, 0x2100#16, 0#16) := by decide
/-- V-ST-3: the ST overwrites its own cell; `IR` keeps the ST. -/
theorem test_st_own_cell : (after (stateAt 7 0x3BFF)).map (fun t => (t.mem, t.ir, t.pc)) =
    some ([(7, 5#16)], 0x3BFF#16, 8#16) := by decide
/-- V-ST-2: ea = 50, no cell written. -/
theorem test_st_above_memory : (after (stateAt 0 0x3A31)).map (fun t => (t.run, t.mem)) =
    some (.aborted (.addressError .st 50#16), [(0, 0x3A31#16)]) := by decide
/-- V-TR-1: the upper byte is dropped. -/
theorem test_trapOut_low_byte : (after ((stateAt 0 0xF021).setReg 0 0x0141)).map
    (fun t => (t.out, t.reg 0, t.run)) = some ([0x41#8], 0x0141#16, .running) := by decide
/-- V-TR-4: HALT in cell 49 ends with `pc` 50 and no error. -/
theorem test_trapHalt_last_cell : (after (stateAt 49 0xF025)).map (fun t => (t.run, t.pc, t.out)) =
    some (.halted, 50#16, []) := by decide
/-- V-TR-10: vector x23 is no input service. -/
theorem test_trapOther_does_nothing : (after (stateAt 0 0xF023)).map (fun t => (t.run, t.pc, t.reg 0, t.out)) =
    some (.running, 1#16, 0#16, []) := by decide
/-- V-IL-1. -/
theorem test_illegal4 : (after (stateAt 9 0x4000)).map (fun t => (t.run, t.ir)) =
    some (.aborted (.illegalOpcode 4#4 10#16), 0x4000#16) := by decide
/-- V-IL-2. -/
theorem test_illegal6 : (after (stateAt 9 0x6FFF)).map (fun t => t.run) =
    some (.aborted (.illegalOpcode 6#4 10#16)) := by decide
/-- V-IL-3. -/
theorem test_illegal7 : (after (stateAt 9 0x7123)).map (fun t => t.run) =
    some (.aborted (.illegalOpcode 7#4 10#16)) := by decide
/-- V-IL-4. -/
theorem test_illegal8 : (after (stateAt 9 0x8000)).map (fun t => t.run) =
    some (.aborted (.illegalOpcode 8#4 10#16)) := by decide
/-- V-IL-5. -/
theorem test_illegal10 : (after (stateAt 9 0xA000)).map (fun t => t.run) =
    some (.aborted (.illegalOpcode 10#4 10#16)) := by decide
/-- V-IL-6. -/
theorem test_illegal11 : (after (stateAt 9 0xB000)).map (fun t => t.run) =
    some (.aborted (.illegalOpcode 11#4 10#16)) := by decide
/-- V-IL-7. -/
theorem test_illegal12 : (after (stateAt 9 0xC1C0)).map (fun t => t.run) =
    some (.aborted (.illegalOpcode 12#4 10#16)) := by decide
/-- V-IL-8. -/
theorem test_illegal13 : (after (stateAt 9 0xD000)).map (fun t => t.run) =
    some (.aborted (.illegalOpcode 13#4 10#16)) := by decide
/-- V-IL-9. -/
theorem test_illegal14 : (after (stateAt 9 0xE000)).map (fun t => t.run) =
    some (.aborted (.illegalOpcode 14#4 10#16)) := by decide
/-- F3: the fetch at 50 fails and leaves `IR` alone. -/
theorem test_fetch_past_memory : (after ((stateAt 0 0x1021).setPc 50)).map (fun t => (t.run, t.pc, t.ir)) =
    some (.aborted (.addressError .fetch 50#16), 50#16, 0#16) := by decide

/-! ## The primitive and the load (95_test_vectors.md 2.1, 2.9) -/

/-- V-BV-1, V-BV-2, V-BV-4, V-BV-5. -/
theorem test_fromLiteral :
    fromLiteral 16 "0001000010000010".toList = some 0x1082#16 ∧ fromLiteral 16 "101".toList = none ∧
    fromLiteral 16 "000100001000001x".toList = none ∧ fromLiteral 3 "010".toList = some 0b010#3 := by decide
/-- V-BV-28, V-BV-34, V-BV-36. -/
theorem test_slice :
    slice 0x10BD#16 11 5 = some 0b11101#5 ∧ slice 0x10BD#16 13 4 = none ∧ slice 0x10BD#16 3 0 = none := by decide
/-- V-BV-57, V-BV-58. -/
theorem test_equal : equal 0b011#3 0b0011#4 = false ∧ equal (setSignedValue 16 (-1)) 0xFFFF#16 = true := by decide
/-- V-BV-59 and the zero extension of R84. -/
theorem test_concat_zeroExtend :
    concat (concat 0b0010#4 0b100#3) 0b000000010#9 = 0x2802#16 ∧ zeroExtend 16 0x25#8 = some 0x0025#16 ∧
    zeroExtend 4 0x25#8 = none := by decide
/-- V-LO-1, V-LO-5, V-LO-8: white space is removed, and a bad second string fails the whole load. -/
theorem test_loadText :
    launch [] = .failed (.loadError .empty) ∧
    launch ["1111 0000 0010 0101"] = .done (.loaded (State.reset.setMem [(0, 0xF025#16)])) ∧
    launch ["1111000000100101", "000100001000001x"] = .failed (.loadError (.badWord 1)) := by decide
/-- R190: a second load is not offered, nor a load of a machine that has halted. -/
theorem test_load_once :
    loadWords [0xF025#16] (.loaded State.reset) = .notOffered ∧
    loadText ["1111000000100101"] (.started (State.reset.setRun .halted)) = .notOffered := by decide
/-- R190, R195: no run without a load; R110: a second call after the end changes nothing. -/
theorem test_execute :
    execute 5 (.constructed State.reset) = none ∧
    execute 5 (.started (State.reset.setRun .halted)) = some (.started (State.reset.setRun .halted)) ∧
    (execute 5 (.loaded (State.reset.setMem [(0, 0xF025#16)]))).map (fun m => m.state.run) = some .halted := by decide
/-- V-LO-3. -/
theorem test_load_too_long :
    loadWords (List.replicate 50 0#16) (.constructed State.reset) = .failed (.loadError (.tooLong 50)) := by decide
/-- R111: a one-word program that halts; `pc` is the address of the HALT plus one. -/
theorem test_run_reports_the_end :
    runFor 5 (State.reset.setMem [(0, 0xF025#16)]) =
      .ended { State.reset with pc := 1, ir := 0xF025, mem := [(0, 0xF025#16)], run := .halted } := by decide

/-! ## The host's two functions -/

/-- A word of the table, in the cell the next step fetches. -/
theorem test_withFetchWord :
    decodeTableWord 16 0x1082 = some (.addReg 0 2 2) ∧
    (after (State.reset.withFetchWord 16 0x1082)).map (fun t => (t.reg 0, t.ir)) = some (4#16, 0x1082#16) := by decide
/-- A terminal state with `pc` outside memory is made to fetch. -/
theorem test_withFetchWord_terminal :
    (after (((State.reset.setRun .halted).setPc 0xFFFF).withFetchWord 16 0xF025)).map (fun t => (t.run, t.pc)) =
      some (.halted, 1#16) := by decide

/-! ## Witnesses: for every statement with hypotheses, a state and operands that meet them, clause by clause -/

/-- `UnsignedView...` and `SignedView...`: both values of the top bit. -/
theorem witness_SignedViewGivesTopBitNegativeWeight :
    (0x7FFF#16).getMsbD 0 = false ∧ signedValue 0x7FFF#16 = 32767 ∧
    (0x8000#16).getMsbD 0 = true ∧ signedValue 0x8000#16 = -32768 := by decide

/-- Both ends of the range. -/
theorem witness_SignedEncoderTruncatesModuloPowerOfTwo :
    ((-2 ^ 15 : Int) ≤ -32768 ∧ (-32768 : Int) ≤ 2 ^ 15 - 1 ∧ signedValue (setSignedValue 16 (-32768)) = -32768) ∧
    ((-2 ^ 15 : Int) ≤ 32767 ∧ (32767 : Int) ≤ 2 ^ 15 - 1 ∧ signedValue (setSignedValue 16 32767) = 32767) := by decide

theorem witness_InvertFlipsEveryBit : 15 < 15 + 1 ∧ (invert 0x0001#16).getMsbD 15 = !((0x0001#16).getMsbD 15) := by decide

theorem witness_BitwiseAndActsBitByBit : 0 < 16 ∧ (BitVector.and 0x8001#16 0xFFF0#16).getMsbD 0 = true := by decide

/-- The copied bit 4 and the replicated bits 5 and 15. -/
theorem witness_SignExtensionReplicatesTopBit :
    BitVector.signExtend 16 0b10000#5 = some 0xFFF0#16 ∧ 4 < 5 ∧ (0xFFF0#16).getLsbD 4 = true ∧
    5 ≤ 5 ∧ 5 < 16 ∧ (0xFFF0#16).getLsbD 5 = true ∧ 5 ≤ 15 ∧ 15 < 16 ∧ (0xFFF0#16).getLsbD 15 = true := by decide

theorem witness_EncodersAndViewsRoundTrip :
    ((-2 ^ 15 : Int) ≤ -32768 ∧ (-32768 : Int) ≤ 2 ^ 15 - 1) ∧ ((-2 ^ 15 : Int) ≤ 32767 ∧ (32767 : Int) ≤ 2 ^ 15 - 1) ∧
    ((0 : Int) ≤ 65535 ∧ (65535 : Int) ≤ 2 ^ 16 - 1 ∧ setUnsignedValue 16 65535 = some 0xFFFF#16) := by decide

/-- T2's tiling. -/
theorem witness_SlicesThatTileReconstructTheVector :
    (∀ n ∈ [4, 3, 9], 1 ≤ n) ∧ [4, 3, 9].sum = 16 ∧ tile 0x2802#16 0 [4, 3, 9] = some (bits 0x2802#16) := by decide

theorem witness_SignAndViewLawsOfWords : 9 ≤ 16 ∧ (sext16 0b100000000#9).toInt = -256 ∧ 16 ≤ 16 := by decide

/-- A success of every operation that can fail, at the edge of its domain, and a failure beside it. -/
theorem witness_PrimitiveFailsExactlyOutsideItsDomain :
    fromLiteral 3 "100".toList = some 0b100#3 ∧ setUnsignedValue 16 65535 = some 0xFFFF#16 ∧
    setUnsignedValue 16 65536 = none ∧ setUnsignedValue 16 (-1) = none ∧
    slice 0x1082#16 13 3 = some 0b010#3 ∧ slice 0x1082#16 (-1) 3 = none ∧
    BitVector.signExtend 9 0b100000000#9 = some 0b100000000#9 ∧ BitVector.signExtend 8 0b000000000#9 = none ∧
    zeroExtend 10 0b100000000#9 = some 0b0100000000#10 ∧ zeroExtend 8 0b000000000#9 = none := by decide

/-- The highest copied bit and the lowest filled one, the widest operand and the first and last positions. -/
theorem witness_ZeroExtensionLowByteAndConcatenation :
    8 ≤ 9 ∧ zeroExtend 9 0xFF#8 = some 0x0FF#9 ∧ 7 < 8 ∧ 8 ≤ 8 ∧ 16 ≤ 16 ∧
    (0 < 3 ∧ (concat 0b100#3 0b0001#4).getMsbD 0 = true) ∧ (3 < 4 ∧ (concat 0b100#3 0b0001#4).getMsbD (3 + 3) = true) := by
  decide

/-- Two widths with one numeric value, and one width. -/
theorem witness_EqualityIsOfWidthAndPattern :
    3 ≠ 4 ∧ equal 0b011#3 0b0011#4 = false ∧ equal 0b011#3 0b011#3 = true ∧ 2 < 3 := by decide

/-- The vectors beside the two excluded ones. -/
theorem witness_DecodeOfEncodeIsTheInstruction :
    (Instr.trapOther 0x22#8).wf = true ∧ decode (encode (.trapOther 0x22#8)) = .trapOther 0x22#8 ∧
    (Instr.addImm 7 0 0b10000#5).wf = true ∧ decode (encode (.addImm 7 0 0b10000#5)) = .addImm 7 0 0b10000#5 := by decide

/-- V-AND-6 beside its canonical word. -/
theorem witness_IgnoredBitsDoNotChangeDecoding :
    0x5042#16 &&& (decode 0x505A#16).readMask = 0x505A#16 &&& (decode 0x505A#16).readMask ∧ 0x5042#16 ≠ 0x505A#16 := by decide

/-- A word for each clause. -/
theorem witness_DecodeExtractsTheListedFields :
    (0x0FFF#16).toNat / 4096 = 0 ∧
    ((0x103F#16).toNat / 4096 = 1 ∧ (0x103F#16).getLsbD 5 = true) ∧
    ((0x1FC7#16).toNat / 4096 = 1 ∧ (0x1FC7#16).getLsbD 5 = false) ∧
    (0x2FFF#16).toNat / 4096 = 2 ∧ (0x3000#16).toNat / 4096 = 3 ∧
    ((0x5020#16).toNat / 4096 = 5 ∧ (0x5020#16).getLsbD 5 = true) ∧
    ((0x5FDF#16).toNat / 4096 = 5 ∧ (0x5FDF#16).getLsbD 5 = false) ∧
    (0x9FFF#16).toNat / 4096 = 9 ∧
    ((0xFF21#16).toNat / 4096 = 15 ∧ (0xFF21#16).toNat % 256 = 0x21) ∧
    ((0xF025#16).toNat / 4096 = 15 ∧ (0xF025#16).toNat % 256 = 0x25) ∧
    ((0xF020#16).toNat / 4096 = 15 ∧ (0xF020#16).toNat % 256 ≠ 0x21 ∧ (0xF020#16).toNat % 256 ≠ 0x25) ∧
    ((0xEFFF#16).toNat / 4096 ∈ [4, 6, 7, 8, 10, 11, 12, 13, 14]) := by decide

/-- The last cell, and the first address beyond it. -/
theorem witness_StepRunsTheDecodedInstruction :
    ((stateAt 49 0xF025).run = .running ∧ (stateAt 49 0xF025).pc.toNat < 50 ∧
      decode ((stateAt 49 0xF025).mem.read (stateAt 49 0xF025).pc.toNat) = .trapHalt) ∧
    ((State.reset.setPc 50).run = .running ∧ 50 ≤ (State.reset.setPc 50).pc.toNat) := by decide

theorem witness_TerminalStatesAreFrozen :
    (State.reset.setRun .halted).run ≠ .running ∧
    (State.reset.setRun (.aborted (.addressError .fetch 50))).run ≠ .running := by decide

/-- A taken branch to 305 from a running state, one not taken, and one not taken in cell 49. -/
theorem witness_BranchAddsOffsetExactlyWhenTaken :
    0x0EFF#16 &&& 0xF000#16 = 0x0000#16 ∧
    (let s := (State.reset.setPc 50).setCc 0b010
     s.run = .running ∧ s.cc.getLsbD 1 = true ∧
      (nextOf (exec (.br true true true 0x0FF#9) s)).map (fun t => t.pc) = some 305#16 ∧
      (nextOf (exec (.br true false true 0x0FF#9) s)).map (fun t => t.pc) = some 50#16) := by decide

theorem witness_AddRegisterStoresTheModularSum : 0x1259#16 &&& 0xF020#16 = 0x1000#16 := by decide
theorem witness_AddImmediateStoresTheModularSum : 0x10BD#16 &&& 0xF020#16 = 0x1020#16 := by decide
theorem witness_AndRegisterStoresTheBitwiseAnd : 0x505A#16 &&& 0xF020#16 = 0x5000#16 ∧ 15 < 16 := by decide
theorem witness_AndImmediateStoresTheBitwiseAnd : 0x56F0#16 &&& 0xF020#16 = 0x5020#16 ∧ 15 < 16 := by decide
theorem witness_NotStoresTheComplement : 0x997F#16 &&& 0xF000#16 = 0x9000#16 ∧ 15 < 16 := by decide

/-- `ea` = 49 and `ea` = 50. -/
theorem witness_LoadCopiesTheAddressedCellOrAborts :
    0x2030#16 &&& 0xF000#16 = 0x2000#16 ∧
    (pcRelative (State.reset.setPc 1) 48#9).toNat < 50 ∧ 50 ≤ (pcRelative (State.reset.setPc 1) 49#9).toNat := by decide

/-- `ea` = 49 and `ea` = 50, and the stored register is not what the cell held. -/
theorem witness_StoreWritesOnlyTheAddressedCellOrAborts :
    0x3A30#16 &&& 0xF000#16 = 0x3000#16 ∧
    (pcRelative (State.reset.setPc 1) 48#9).toNat < 50 ∧ 50 ≤ (pcRelative (State.reset.setPc 1) 49#9).toNat ∧
    State.reset.reg 5 ≠ State.reset.mem.read 49 := by decide

theorem witness_OutAppendsTheLowByteOfRegisterZero : 0xFF21#16 &&& 0xF0FF#16 = 0xF021#16 := by decide
theorem witness_HaltEndsTheRunAndChangesNothingElse :
    0xFA25#16 &&& 0xF0FF#16 = 0xF025#16 ∧
    ∃ t, exec .trapHalt State.reset = .next t ∧ State.reset.run ≠ .halted ∧ t.run = .halted :=
  ⟨by decide, _, rfl, by decide⟩

theorem witness_OtherTrapVectorsDoNothing :
    0xF022#16 &&& 0xF000#16 = 0xF000#16 ∧ 0xF022#16 &&& 0x00FF#16 ≠ 0x0021#16 ∧
    0xF022#16 &&& 0x00FF#16 ≠ 0x0025#16 := by decide

/-- An illegal word in the last cell. -/
theorem witness_IllegalOpcodesAbortWithOpcodeAndAdvancedPc :
    Instr.illegal14 ∈ [Instr.illegal4, .illegal6, .illegal7, .illegal8, .illegal10, .illegal11, .illegal12, .illegal13,
      .illegal14] ∧
    (∃ t, exec .illegal14 State.reset = .next t ∧ State.reset.run = .running ∧ t.run = .aborted (.illegalOpcode 14 0)) ∧
    (stateAt 49 0xE000).run = .running ∧ (stateAt 49 0xE000).pc.toNat < 50 ∧
    ((stateAt 49 0xE000).mem.read (stateAt 49 0xE000).pc.toNat).extractLsb' 12 4 ∉
      ([0, 1, 2, 3, 5, 9, 15] : List (BitVec 4)) :=
  ⟨by decide, ⟨_, rfl, rfl, rfl⟩, by decide⟩

/-- A definer and an instruction that is none, each with its next state. -/
theorem witness_ConditionCodesComeOnlyFromTheSetter :
    (∃ t, exec (.addReg 0 2 2) State.reset = .next t ∧ (Instr.addReg 0 2 2).defines = some 0 ∧ t.cc = 0b001#3) ∧
    (∃ t, exec (.ld 0 5#9) State.reset = .next t ∧ (Instr.ld 0 5#9).defines = none) :=
  ⟨⟨_, rfl, by decide⟩, ⟨_, rfl, by decide⟩⟩

/-- Both sides of the bound, for each clause. -/
theorem witness_MemoryPrimitivesCheckTheBoundFirst :
    (49#16).toNat ≤ 49 ∧ 49 < (50#16).toNat ∧
    (State.reset.setPc 50).run = .running ∧ 49 < (State.reset.setPc 50).pc.toNat ∧
    49 < (pcRelative (State.reset.setPc 1) 49#9).toNat := by decide

theorem witness_EffectiveAddressIsThePcRelativeSum :
    decode 0x0EFF#16 = .br true true true 0x0FF#9 ∧ decode 0x21FF#16 = .ld 0 0x1FF#9 ∧ decode 0x3BFF#16 = .st 5 0x1FF#9 ∧
    branchTaken true true true (State.reset.setCc 0b100).cc = true ∧
    (pcRelative (State.reset.setPc 1) 48#9).toNat < 50 ∧ 50 ≤ (pcRelative (State.reset.setPc 1) 49#9).toNat := by decide

/-- `pc` = 1 and `pc` = 50, a sum of zero or more and a negative one. -/
theorem witness_ReducedAddressIsInRangeExactlyWhenTheExactSumIs :
    (1 ≤ (State.reset.setPc 1).pc.toNat ∧ (State.reset.setPc 1).pc.toNat ≤ 50 ∧
      (0 : Int) ≤ ((State.reset.setPc 1).pc.toNat : Int) + (0x1FF#9).toInt) ∧
    (1 ≤ (State.reset.setPc 50).pc.toNat ∧ (State.reset.setPc 50).pc.toNat ≤ 50 ∧
      ((State.reset.setPc 50).pc.toNat : Int) + (0x100#9).toInt < 0) := by decide

/-- V-ST-4's store into the next word, and a LD of the same cell from the state after it. -/
theorem witness_StoreIsSeenByTheNextFetchAndLoad :
    (stateAt 3 0x3E00).run = .running ∧ (stateAt 3 0x3E00).pc.toNat < 50 ∧
    decode ((stateAt 3 0x3E00).mem.read (stateAt 3 0x3E00).pc.toNat) = .st 7 0 ∧
    ((stateAt 3 0x3E00).pc + 1 + sext16 (0 : BitVec 9)).toNat < 50 ∧
    (after (stateAt 3 0x3E00)).map (fun t => pcRelative t 0) = some ((stateAt 3 0x3E00).pc + 1 + sext16 (0 : BitVec 9)) := by
  decide

/-- For each clause an instruction whose next state differs there. -/
theorem witness_EachPieceOfStateHasOnlyItsNamedWriters :
    (∃ t, exec (.ld 3 5#9) State.reset = .next t ∧ t.reg 3 ≠ State.reset.reg 3) ∧
    (∃ t, exec (.st 3 5#9) State.reset = .next t ∧ t.mem.read 5 ≠ State.reset.mem.read 5) ∧
    (∃ t, exec (.br true true true 5#9) (State.reset.setCc 0b010) = .next t ∧ t.pc ≠ (State.reset.setCc 0b010).pc) ∧
    (∃ t, exec (.not 3 3) State.reset = .next t ∧ t.cc ≠ State.reset.cc) ∧
    (∃ t, exec .trapOut State.reset = .next t ∧ t.out ≠ State.reset.out) ∧
    (∃ t, exec .trapHalt State.reset = .next t ∧ t.run ≠ State.reset.run) ∧
    (∃ t, exec (.ld 3 50#9) State.reset = .next t ∧ t.run ≠ State.reset.run) ∧
    (∃ t, exec .illegal6 State.reset = .next t ∧ t.run ≠ State.reset.run) :=
  ⟨⟨_, rfl, by decide⟩, ⟨_, rfl, by decide⟩, ⟨_, rfl, by decide⟩, ⟨_, rfl, by decide⟩, ⟨_, rfl, by decide⟩,
    ⟨_, rfl, by decide⟩, ⟨_, rfl, by decide⟩, ⟨_, rfl, by decide⟩⟩

theorem witness_OutputOnlyGrowsAtItsEnd :
    ∃ t, Sys2Proof.core.run 1 (stateAt 0 0xF021) = .next t ∧ t.out = [0x00#8] :=
  ⟨_, rfl, by decide⟩

/-- A cycle for each way of ending. -/
theorem witness_CycleEndsTheRunExactlyInTheNamedWays :
    (∃ t, step (stateAt 49 0xF025) = .next t ∧ t.run = .halted) ∧
    (∃ t, step (State.reset.setPc 50) = .next t ∧ t.run = .aborted (.addressError .fetch 50)) ∧
    (∃ t, step (stateAt 9 0x4000) = .next t ∧ t.run = .aborted (.illegalOpcode 4 10)) ∧
    (∃ t, step (stateAt 0 0x2031) = .next t ∧ t.run = .aborted (.addressError .ld 50)) ∧
    (∃ t, step (stateAt 0 0x3A31) = .next t ∧ t.run = .aborted (.addressError .st 50)) ∧
    (State.reset.setPc 50).run = .running ∧ (stateAt 49 0xF025).run = .running :=
  ⟨⟨_, rfl, by decide⟩, ⟨_, rfl, by decide⟩, ⟨_, rfl, by decide⟩, ⟨_, rfl, by decide⟩, ⟨_, rfl, by decide⟩,
    by decide, by decide⟩

theorem witness_AbortedStateHoldsWhatTheTableSays :
    (stateAt 20 0x2100).run = .running ∧
    ∃ t, step (stateAt 20 0x2100) = .next t ∧ t.run = .aborted (.addressError .ld 65301) ∧ t.pc = 21 ∧ t.ir = 0x2100 :=
  ⟨by decide, _, rfl, by decide⟩

/-- V-BR-3. -/
theorem witness_BranchToItselfNeverEnds :
    ((stateAt 0 0x0FFF).setCc 0b001).run = .running ∧ ((stateAt 0 0x0FFF).setCc 0b001).pc.toNat < 50 ∧
    ((stateAt 0 0x0FFF).setCc 0b001).mem.read ((stateAt 0 0x0FFF).setCc 0b001).pc.toNat = 0x0FFF#16 ∧
    ((stateAt 0 0x0FFF).setCc 0b001).cc ≠ 0b000#3 := by decide

theorem witness_BoundedRunReportsTheEndOrRunsOutOfCycles :
    (∃ t, runFor 1 (stateAt 0 0xF025) = .ended t) ∧ (∃ t, runFor 1 (stateAt 0 0x0000) = .outOfFuel t) :=
  ⟨⟨_, rfl⟩, ⟨_, rfl⟩⟩

theorem witness_OldInstructionRegisterCannotInfluenceACycle :
    (stateAt 49 0xF025).run = .running ∧ (stateAt 49 0xF025).pc.toNat < 50 := by decide

theorem witness_OutputIsNeverReadByTheMachine :
    ∃ t, step (stateAt 0 0xF021) = .next t ∧ t.out = (stateAt 0 0xF021).out ++ [0x00#8] :=
  ⟨_, rfl, by decide⟩

/-- The reset state meets the invariant, so its premise is not empty, and has a next state. -/
theorem witness_EveryStepKeepsTheInvariant :
    State.reset.Inv Config.ccReset ∧ ∃ t, step State.reset = .next t ∧ t.pc = 1 :=
  ⟨⟨State.reset_mem_wf, .inl rfl, .inl (by decide), trivial⟩, _, rfl, by decide⟩

/-- A running pair whose `pc` are -255 and its reduction, and one at 305. -/
theorem witness_SixteenBitPcCannotBeToldFromTheUnboundedOne :
    (Wide.mk State.reset.x (-255) 0 0 [] .running []).Agrees (State.reset.setPc 65281) ∧
    (Wide.mk State.reset.x 305 0 0 [] .running []).Agrees (State.reset.setPc 305) ∧
    (-255 : Int) ≤ -255 ∧ (305 : Int) ≤ 305 :=
  ⟨⟨rfl, by decide, rfl, rfl, rfl, rfl, rfl⟩, ⟨rfl, by decide, rfl, rfl, rfl, rfl, rfl⟩, by decide, by decide⟩

theorem witness_RegistersHoldTheirIndexUntilTheRun :
    (∃ m, loadWords [0xF025#16] (.constructed State.reset) = .done m) ∧
    (∃ m, loadText ["1111000000100101"] (.constructed State.reset) = .done m) :=
  ⟨⟨_, rfl⟩, ⟨.loaded (State.reset.setMem [(0, 0xF025#16)]), by decide⟩⟩

/-- Words 0 and 1, and the first cell not loaded. -/
theorem witness_LoadWritesWordsInOrderFromZero :
    ∃ m, loadWords [0x1082#16, 0xF025#16] (.constructed State.reset) = .done m ∧ m.state.mem.read 1 = 0xF025#16 ∧
      m.state.mem.read 2 = 0 ∧ 1 < [0x1082#16, 0xF025#16].length ∧ [0x1082#16, 0xF025#16].length ≤ 2 :=
  ⟨_, rfl, by decide⟩

/-- The lengths 0, 1, 49 and 50, and one well-formed string. -/
theorem witness_LoadAcceptsOneToFortyNineWords :
    ([] : List Word).length = 0 ∧ 50 ≤ (List.replicate 50 0#16).length ∧ 1 ≤ [0#16].length ∧
    (List.replicate 49 0#16).length ≤ 49 ∧ ([] : List String).length = 0 ∧ 50 ≤ (List.replicate 50 "").length ∧
    ∀ line ∈ ["1111000000100101"], (parseWord line).isSome := by decide

/-- A character that stays, the six that do not, a string that parses, and one behind it that does not. -/
theorem witness_TextLoadIsTheWordLoadOfItsDigits :
    cleaned " 1\t\n\r\x0b\x0c0" = ['1', '0'] ∧
    ["1111 0000 0010 0101"].map parseWord = [0xF025#16].map some ∧
    ["1111000000100101"].length + 1 + ([] : List String).length ≤ 49 ∧
    (∀ l ∈ ["1111000000100101"], (parseWord l).isSome) ∧ parseWord "111100000010010" = none := by decide

/-- The last word loaded, the last cell not loaded, and a program's text. -/
theorem witness_LaunchStateMeetsTheInvariant :
    (∃ m, loadWords [0xF025#16] (.constructed (State.constructed 0b010 fun a => BitVec.ofNat 16 a)) = .done m ∧
      m.state.mem.read 49 = 49 ∧ 0 < [0xF025#16].length ∧ 1 ≤ 49 ∧ 49 < 50) ∧
    ["1111 0000 0010 0101"].map parseWord = [0xF025#16].map some :=
  ⟨⟨_, rfl, by decide⟩, by decide⟩

/-- A load of each kind that is done, a run that ends before its cycles are used up, and one that does not. -/
theorem witness_LoadAndRunAreOfferedOnceInOrder :
    (∃ m, loadWords [0xF025#16] (.constructed State.reset) = .done m ∧
      (execute 5 m).map (fun m' => m'.state.run) = some .halted) ∧
    (∃ m, loadText ["1111000000100101"] (.constructed State.reset) = .done m) ∧
    (execute 1 (.loaded State.reset)).map (fun m' => m'.state.run) = some .running ∧
    (State.reset.setRun .halted).run ≠ .running :=
  ⟨⟨_, rfl, by decide⟩, ⟨.loaded (State.reset.setMem [(0, 0xF025#16)]), by decide⟩, by decide⟩

theorem witness_ObservationDeterminesTheState :
    49 < 50 ∧ (stateAt 49 0xF025).mem.wf ∧ observe (stateAt 49 0xF025) = observe (stateAt 49 0xF025) := by decide

end Sys2Proof.Tests.Slice0
end

section
/-! PROOFS. What one instruction does, said once as a relation (`Effect`), and the statements about the machine's state
that follow from it: who writes what, the output, the invariant, and the unbounded program counter. -/

namespace Sys2Proof.Machine

open Sys2Proof.Machine.BitVector (add16 and16 not16 sext16 lowByte)

/-! ## The effect of an instruction -/

/-- The register a definer writes and the value it stores there (R132 to R136). -/
def operateResult (s : State) : Instr → Option (RegIdx × Word)
  | .addReg dr sr1 sr2 => some (dr, add16 (s.reg sr1) (s.reg sr2))
  | .addImm dr sr1 imm5 => some (dr, add16 (s.reg sr1) (sext16 imm5))
  | .andReg dr sr1 sr2 => some (dr, and16 (s.reg sr1) (s.reg sr2))
  | .andImm dr sr1 imm5 => some (dr, and16 (s.reg sr1) (sext16 imm5))
  | .not dr sr => some (dr, not16 (s.reg sr))
  | _ => none

/-- `Effect s i t`: the handler of `i` takes `s` to `t`, by the way of ending that its rule names
(`exec_eq_next_iff` ties it to `exec`). -/
inductive Effect (s : State) : Instr → State → Prop
  | branch {n z p : Bool} {off9 : BitVec 9} (h : branchTaken n z p s.cc = true) :
      Effect s (.br n z p off9) (s.setPc (pcRelative s off9))
  | noBranch {n z p : Bool} {off9 : BitVec 9} (h : branchTaken n z p s.cc = false) : Effect s (.br n z p off9) s
  | operate {i : Instr} {dr : RegIdx} {v : Word} (h : operateResult s i = some (dr, v)) : Effect s i (define dr v s)
  | load {dr : RegIdx} {off9 : BitVec 9} (h : (pcRelative s off9).toNat < 50) :
      Effect s (.ld dr off9) (s.setReg dr (s.mem.read (pcRelative s off9).toNat))
  | loadError {dr : RegIdx} {off9 : BitVec 9} (h : 50 ≤ (pcRelative s off9).toNat) :
      Effect s (.ld dr off9) (raise (.addressError .ld (pcRelative s off9)) s)
  | store {sr : RegIdx} {off9 : BitVec 9} (h : (pcRelative s off9).toNat < 50) :
      Effect s (.st sr off9) (s.setMem (s.mem.write (pcRelative s off9).toNat (s.reg sr)))
  | storeError {sr : RegIdx} {off9 : BitVec 9} (h : 50 ≤ (pcRelative s off9).toNat) :
      Effect s (.st sr off9) (raise (.addressError .st (pcRelative s off9)) s)
  | out : Effect s .trapOut (s.emit (lowByte (s.reg 0)))
  | halt : Effect s .trapHalt (s.setRun .halted)
  | noService {vect8 : BitVec 8} : Effect s (.trapOther vect8) s
  | illegal {i : Instr} (h : i.opcode ∈ illegalOpcodes) : Effect s i (raise (.illegalOpcode i.opcode s.pc) s)

variable {i : Instr} {s t : State} {dr : RegIdx} {v : Word}

theorem defines_of_operateResult (h : operateResult s i = some (dr, v)) : i.defines = some dr := by
  cases i <;> simp_all [operateResult, Instr.defines]

theorem writesReg_of_defines (h : i.defines = some dr) : i.writesReg = some dr := by
  cases i <;> simp_all [Instr.defines, Instr.writesReg]

theorem exec_of_operateResult (h : operateResult s i = some (dr, v)) : exec i s = .next (define dr v s) := by
  cases i with
  | addReg | addImm | andReg | andImm | not => cases h; rfl
  | _ => cases h

theorem exec_of_illegal (h : i.opcode ∈ illegalOpcodes) (s : State) : exec i s = illegalOpcode i.opcode s := by
  cases i with
  | illegal4 | illegal6 | illegal7 | illegal8 | illegal10 | illegal11 | illegal12 | illegal13 | illegal14 => rfl
  | _ => simp [Instr.opcode, illegalOpcodes] at h

/-- Every instruction has one of the effects, and `exec` answers its state. -/
theorem exec_has_effect (i : Instr) (s : State) : ∃ t, exec i s = .next t ∧ Effect s i t := by
  cases i with
  | br n z p off9 =>
    rcases execBr_cases n z p off9 s with ⟨h, he⟩ | ⟨h, he⟩
    · exact ⟨_, he, .branch h⟩
    · exact ⟨_, he, .noBranch h⟩
  | ld dr off9 =>
    rcases execLd_cases dr off9 s with ⟨h, he⟩ | ⟨h, he⟩
    · exact ⟨_, he, .load h⟩
    · exact ⟨_, he, .loadError h⟩
  | st sr off9 =>
    rcases execSt_cases sr off9 s with ⟨h, he⟩ | ⟨h, he⟩
    · exact ⟨_, he, .store h⟩
    · exact ⟨_, he, .storeError h⟩
  | addReg | addImm | andReg | andImm | not => exact ⟨_, rfl, .operate rfl⟩
  | trapOut => exact ⟨_, rfl, .out⟩
  | trapHalt => exact ⟨_, rfl, .halt⟩
  | trapOther => exact ⟨_, rfl, .noService⟩
  | illegal4 | illegal6 | illegal7 | illegal8 | illegal10 | illegal11 | illegal12 | illegal13 | illegal14 =>
    exact ⟨_, rfl, .illegal (by decide)⟩

theorem Effect.exec_eq (h : Effect s i t) : exec i s = .next t := by
  cases h with
  | branch h | noBranch h => simp [exec, execBr, h]
  | operate h => exact exec_of_operateResult h
  | load h => simp only [exec, execLd, memRead_ok h]
  | loadError h => simp only [exec, execLd, memRead_error h]
  | store h => simp only [exec, execSt, memWrite_ok h]
  | storeError h => simp only [exec, execSt, memWrite_error h]
  | out | halt | noService => rfl
  | illegal h => exact exec_of_illegal h s

/-- `Effect` is `exec`. -/
theorem exec_eq_next_iff : exec i s = .next t ↔ Effect s i t := by
  refine ⟨fun h => ?_, Effect.exec_eq⟩
  obtain ⟨t', he, hf⟩ := exec_has_effect i s
  cases h.symm.trans he
  exact hf

/-! ## Who writes what -/

theorem Effect.writesReg_of_reg_ne (h : Effect s i t) {r : RegIdx} (hr : t.reg r ≠ s.reg r) : i.writesReg = some r := by
  cases h with
  | @operate _ dr _ h =>
    obtain rfl : r = dr := by_contra fun hne => hr (define_reg_other hne _ s)
    exact writesReg_of_defines (defines_of_operateResult h)
  | @load dr =>
    obtain rfl : r = dr := by_contra fun hne => hr (s.reg_setReg_other hne _)
    rfl
  | _ => exact absurd rfl hr

theorem Effect.store_of_read_ne (h : Effect s i t) {a : Nat} (ha : t.mem.read a ≠ s.mem.read a) :
    ∃ sr off9, i = .st sr off9 ∧ a = (pcRelative s off9).toNat ∧ a < 50 ∧ t.mem.read a = s.reg sr := by
  cases h with
  | @store sr off9 h =>
    obtain rfl : a = (pcRelative s off9).toNat := by_contra fun hne => ha (s.mem.read_write_other hne _)
    exact ⟨sr, off9, rfl, rfl, h, s.mem.read_write_same _ _⟩
  | _ => exact absurd rfl ha

theorem Effect.branch_of_pc_ne (h : Effect s i t) (hp : t.pc ≠ s.pc) :
    ∃ n z p off9, i = .br n z p off9 ∧ branchTaken n z p s.cc = true ∧ t.pc = pcRelative s off9 := by
  cases h with
  | branch h => exact ⟨_, _, _, _, rfl, h, rfl⟩
  | _ => exact absurd rfl hp

theorem Effect.defines_of_cc_ne (h : Effect s i t) (hc : t.cc ≠ s.cc) : ∃ dr, i.defines = some dr := by
  cases h with
  | operate h => exact ⟨_, defines_of_operateResult h⟩
  | _ => exact absurd rfl hc

theorem Effect.ir_eq (h : Effect s i t) : t.ir = s.ir := by
  cases h <;> rfl

theorem Effect.trapOut_of_out_ne (h : Effect s i t) (ho : t.out ≠ s.out) : i = .trapOut := by
  cases h with
  | out => rfl
  | _ => exact absurd rfl ho

theorem Effect.report_of_run_ne (h : Effect s i t) (hr : t.run ≠ s.run) :
    (i = .trapHalt ∧ t.run = .halted) ∨
    (∃ r off9, (i = .ld r off9 ∧ t.run = .aborted (.addressError .ld (pcRelative s off9)) ∨
      i = .st r off9 ∧ t.run = .aborted (.addressError .st (pcRelative s off9))) ∧
      50 ≤ (pcRelative s off9).toNat) ∨
    (i.opcode ∈ illegalOpcodes ∧ t.run = .aborted (.illegalOpcode i.opcode s.pc)) := by
  cases h with
  | halt => exact .inl ⟨rfl, rfl⟩
  | loadError h => exact .inr (.inl ⟨_, _, .inl ⟨rfl, rfl⟩, h⟩)
  | storeError h => exact .inr (.inl ⟨_, _, .inr ⟨rfl, rfl⟩, h⟩)
  | illegal h => exact .inr (.inr ⟨h, rfl⟩)
  | _ => exact absurd rfl hr

/-- Settles O38: each clause from the effect of the instruction. -/
theorem eachPieceOfStateHasOnlyItsNamedWriters : Obligations.EachPieceOfStateHasOnlyItsNamedWriters := by
  intro i s t h
  have he : Effect s i t := exec_eq_next_iff.mp h
  exact ⟨fun _ => he.writesReg_of_reg_ne, fun _ => he.store_of_read_ne, he.branch_of_pc_ne, he.defines_of_cc_ne,
    he.ir_eq, he.trapOut_of_out_ne, he.report_of_run_ne⟩

/-! ## The cycle of a running machine -/

theorem step_of_fetch (hr : s.run = .running) (hp : s.pc.toNat < 50) :
    step s = exec (decode (s.mem.read s.pc.toNat)) ((s.setIr (s.mem.read s.pc.toNat)).setPc (s.pc + 1)) := by
  rcases step_cases s with ⟨-, -, h⟩ | ⟨-, hge, -⟩ | ⟨hne, -⟩
  · exact h
  · omega
  · exact absurd hr hne

theorem step_of_fetch_error (hr : s.run = .running) (hp : 50 ≤ s.pc.toNat) :
    step s = .next (raise (.addressError .fetch s.pc) s) := by
  rcases step_cases s with ⟨-, hlt, -⟩ | ⟨-, -, h⟩ | ⟨hne, -⟩
  · omega
  · exact h
  · exact absurd hr hne

theorem step_of_terminal (hr : s.run ≠ .running) : step s = .next s := by
  rcases step_cases s with ⟨h, -⟩ | ⟨h, -⟩ | ⟨-, h⟩
  · exact absurd h hr
  · exact absurd h hr
  · exact h

/-- Every step answers a next state. -/
theorem step_eq_next (s : State) : ∃ t, step s = .next t := by
  rcases step_cases s with ⟨-, -, h⟩ | ⟨-, -, h⟩ | ⟨-, h⟩
  · obtain ⟨t, he, -⟩ := exec_has_effect _ _
    exact ⟨t, h.trans he⟩
  · exact ⟨_, h⟩
  · exact ⟨_, h⟩

/-- Settles O44: the fetch overwrites `IR` before the handler runs. -/
theorem oldInstructionRegisterCannotInfluenceACycle : Obligations.OldInstructionRegisterCannotInfluenceACycle :=
  fun s v hr hp => (step_of_fetch (s := { s with ir := v }) hr hp).trans (step_of_fetch hr hp).symm

/-! ## The output -/

/-- Every instruction but OUT leaves the output alone and has the same effect whatever the output holds. -/
theorem Effect.silent (h : Effect s i t) (hi : i ≠ .trapOut) :
    t.out = s.out ∧ ∀ o, Effect { s with out := o } i { t with out := o } := by
  cases h with
  | branch h => exact ⟨rfl, fun _ => .branch h⟩
  | noBranch h => exact ⟨rfl, fun _ => .noBranch h⟩
  | operate h => exact ⟨rfl, fun _ => .operate h⟩
  | load h => exact ⟨rfl, fun _ => .load h⟩
  | loadError h => exact ⟨rfl, fun _ => .loadError h⟩
  | store h => exact ⟨rfl, fun _ => .store h⟩
  | storeError h => exact ⟨rfl, fun _ => .storeError h⟩
  | out => exact absurd rfl hi
  | halt => exact ⟨rfl, fun _ => .halt⟩
  | noService => exact ⟨rfl, fun _ => .noService⟩
  | illegal h => exact ⟨rfl, fun _ => .illegal h⟩

/-- The codes a step appends, at most one, and what it does beside that do not depend on the output (R22). -/
def EmitsAtMostOne (f : State → Host.Outcome State Fault Refusal) (s t : State) : Prop :=
  ∃ emitted, emitted.length ≤ 1 ∧ t.out = s.out ++ emitted ∧
    ∀ o, f { s with out := o } = .next { t with out := o ++ emitted }

/-- A silent step appends no codes. -/
theorem emitsAtMostOne_of_silent {f : State → Host.Outcome State Fault Refusal} (ho : t.out = s.out)
    (hf : ∀ o, f { s with out := o } = .next { t with out := o }) : EmitsAtMostOne f s t :=
  ⟨[], by simp, by simpa using ho, fun o => by rw [List.append_nil]; exact hf o⟩

theorem exec_emitsAtMostOne (h : exec i s = .next t) : EmitsAtMostOne (exec i) s t := by
  by_cases hi : i = .trapOut
  · subst hi
    cases h
    exact ⟨[_], le_rfl, rfl, fun _ => rfl⟩
  · obtain ⟨ho, he⟩ := (exec_eq_next_iff.mp h).silent hi
    exact emitsAtMostOne_of_silent ho fun o => (he o).exec_eq

theorem step_emitsAtMostOne (h : step s = .next t) : EmitsAtMostOne step s t := by
  rcases step_cases s with ⟨hr, hp, hs⟩ | ⟨hr, hp, hs⟩ | ⟨hr, hs⟩
  · obtain ⟨emitted, hlen, hout, he⟩ := exec_emitsAtMostOne (hs.symm.trans h)
    exact ⟨emitted, hlen, hout, fun o => (step_of_fetch (s := { s with out := o }) hr hp).trans (he o)⟩
  · cases hs.symm.trans h
    exact emitsAtMostOne_of_silent rfl fun o => step_of_fetch_error (s := { s with out := o }) hr hp
  · cases hs.symm.trans h
    exact emitsAtMostOne_of_silent rfl fun o => step_of_terminal (s := { s with out := o }) hr

/-- Settles O45: the codes a step appends are those of `step_emitsAtMostOne`. -/
theorem outputIsNeverReadByTheMachine : Obligations.OutputIsNeverReadByTheMachine := by
  intro s t o h
  obtain ⟨emitted, -, hout, he⟩ := step_emitsAtMostOne h
  exact ⟨emitted, hout, he o⟩

/-- Settles O39, by induction on the number of steps. -/
theorem outputOnlyGrowsAtItsEnd : Obligations.OutputOnlyGrowsAtItsEnd := by
  intro k
  induction k with
  | zero =>
    intro s t h
    cases h
    exact ⟨List.prefix_rfl, le_rfl⟩
  | succ k ih =>
    intro s t h
    obtain ⟨u, hu⟩ := step_eq_next s
    obtain ⟨emitted, hlen, hout, -⟩ := step_emitsAtMostOne hu
    obtain ⟨hpre, hle⟩ := ih u t ((core_run_succ k hu).symm.trans h)
    rw [hout] at hpre hle
    refine ⟨(List.prefix_append _ _).trans hpre, ?_⟩
    rw [List.length_append] at hle
    omega

/-! ## PC-relative addresses as reduced integers -/

/-- An integer reduced to 16 bits, as a number. -/
theorem toNat_ofInt16 (a : Int) : ((BitVec.ofInt 16 a).toNat : Int) = a % 65536 := by
  rw [BitVec.toNat_ofInt]
  omega

/-- The PC-relative address is the reduction of the exact sum, whatever integer `pc` is the reduction of (D1). -/
theorem pcRelative_of_pc {a : Int} (h : s.pc = BitVec.ofInt 16 a) (off9 : BitVec 9) :
    pcRelative s off9 = BitVec.ofInt 16 (a + off9.toInt) := by
  rw [pcRelative_eq, h, BitVec.ofInt_add]
  rfl

/-- The range of a 9-bit offset. -/
theorem off9_bounds (off9 : BitVec 9) : -256 ≤ off9.toInt ∧ off9.toInt ≤ 255 := by
  have h := off9.isLt
  rw [BitVec.toInt_eq_toNat_cond]
  split <;> omega

/-- A sum of `pc` in 1..50 and an offset stays in the two ranges of R15. -/
theorem pcReachable_pcRelative (h1 : 1 ≤ s.pc.toNat) (h2 : s.pc.toNat ≤ 50) (off9 : BitVec 9) :
    PcReachable (pcRelative s off9) := by
  have hsum := toNat_ofInt16 (s.pc.toNat + off9.toInt)
  rw [← pcRelative_of_pc (s := s) (by simp) off9] at hsum
  have hoff := off9_bounds off9
  unfold PcReachable
  omega

/-- The advance of a `pc` in range. -/
theorem toNat_advanced_pc (h : s.pc.toNat < 50) : (s.pc + 1).toNat = s.pc.toNat + 1 := by
  rw [BitVec.toNat_add, show (1 : Word).toNat = 1 from rfl]
  omega

/-! ## The invariant -/

/-- What the handler of a cycle is given, after fetch and advance: the invariant of a running machine, with `pc` in 1..50. -/
structure MidCycle (ccReset : CondCode) (s : State) : Prop where
  memory : s.mem.wf
  flags : CcReachable ccReset s.cc
  low : 1 ≤ s.pc.toNat
  high : s.pc.toNat ≤ 50
  running : s.run = .running

variable {ccReset : CondCode}

theorem MidCycle.pcReachable (h : MidCycle ccReset s) : PcReachable s.pc :=
  .inl (h.high.trans (by decide))

theorem endRecord_of_running (h : s.run = .running) : EndRecord s := by
  unfold EndRecord
  rw [h]
  trivial

theorem midCycle_of_inv (h : s.Inv ccReset) (hr : s.run = .running) (hp : s.pc.toNat < 50) (w : Word) :
    MidCycle ccReset ((s.setIr w).setPc (s.pc + 1)) where
  memory := h.memory
  flags := h.flags
  low := by rw [State.setPc_pc, toNat_advanced_pc hp]; omega
  high := by rw [State.setPc_pc, toNat_advanced_pc hp]; omega
  running := hr

/-- A handler keeps the invariant: the running ends need their piece of state in range, the terminal ones their record. -/
theorem Effect.inv (h : Effect s (decode s.ir) t) (hs : MidCycle ccReset s) : t.Inv ccReset := by
  have running {t : State} (hm : t.mem.wf) (hc : CcReachable ccReset t.cc) (hp : PcReachable t.pc)
      (hr : t.run = s.run) : t.Inv ccReset :=
    ⟨hm, hc, hp, endRecord_of_running (hr.trans hs.running)⟩
  have terminal {r : RunState} (hrec : EndRecord (s.setRun r)) : (s.setRun r).Inv ccReset :=
    ⟨hs.memory, hs.flags, hs.pcReachable, hrec⟩
  generalize hi : decode s.ir = i at h
  cases h with
  | branch => exact running hs.memory hs.flags (pcReachable_pcRelative hs.low hs.high _) rfl
  | operate => exact running hs.memory (define_cc _ _ s ▸ .inr (ccOf_cases _)) hs.pcReachable rfl
  | store h => exact running (Memory.wf_write hs.memory h _) hs.flags hs.pcReachable rfl
  | noBranch | load | out | noService => exact running hs.memory hs.flags hs.pcReachable rfl
  | loadError h | storeError h => exact terminal ⟨hs.low, hs.high, h, _, _, hi, rfl⟩
  | halt => exact terminal ⟨hs.low, hs.high, hi⟩
  | illegal h => exact terminal ⟨hs.low, hs.high, rfl, hi ▸ decode_opcode s.ir, h⟩

/-- Settles O46: a handler keeps the invariant (`Effect.inv`), a fetch error leaves its record, a terminal state stays. -/
theorem everyStepKeepsTheInvariant : Obligations.EveryStepKeepsTheInvariant := by
  intro ccReset s t hinv h
  rcases step_cases s with ⟨hr, hp, hs⟩ | ⟨-, hp, hs⟩ | ⟨-, hs⟩
  · exact (exec_eq_next_iff.mp (hs.symm.trans h)).inv (midCycle_of_inv hinv hr hp _)
  · cases hs.symm.trans h
    exact ⟨hinv.memory, hinv.flags, hinv.counter, rfl, hp⟩
  · cases hs.symm.trans h
    exact hinv

/-! ## The unbounded program counter -/

/-- The integers `pc` holds between two cycles (D1 in detail). -/
def PcBounded (a : Int) : Prop := -255 ≤ a ∧ a ≤ 305

variable {m : Wide}

/-- Near the cells, an exact address is valid exactly when its reduction is, and names the same cell. -/
theorem validAddress_iff {a : Int} (h1 : -511 ≤ a) (h2 : a ≤ 560) :
    validAddress a ↔ (BitVec.ofInt 16 a).toNat < 50 := by
  have h := toNat_ofInt16 a
  unfold validAddress Config.memSize
  omega

theorem toNat_of_validAddress {a : Int} (h : validAddress a) : (BitVec.ofInt 16 a).toNat = a.toNat := by
  have hn := toNat_ofInt16 a
  unfold validAddress Config.memSize at h
  omega

theorem Wide.handle_of_operateResult (hx : s.x = m.x) (h : operateResult s i = some (dr, v)) :
    m.handle i = m.define dr v := by
  cases i with
  | addReg | addImm | andReg | andImm | not => cases h; simp [Wide.handle, State.reg, hx]
  | _ => cases h

theorem Wide.handle_of_illegal (h : i.opcode ∈ illegalOpcodes) : m.handle i = m.illegal i.opcode := by
  cases i with
  | illegal4 | illegal6 | illegal7 | illegal8 | illegal10 | illegal11 | illegal12 | illegal13 | illegal14 => rfl
  | _ => simp [Instr.opcode, illegalOpcodes] at h

/-- The exact sum of a LD or ST and the 16-bit one: in range together, and then the same cell. -/
theorem validAddress_pcRelative_iff (hpc : s.pc = BitVec.ofInt 16 m.pc) (h1 : 1 ≤ m.pc) (h2 : m.pc ≤ 50)
    (off9 : BitVec 9) : validAddress (m.pc + off9.toInt) ↔ (pcRelative s off9).toNat < 50 := by
  have hoff := off9_bounds off9
  rw [pcRelative_of_pc hpc]
  exact validAddress_iff (by omega) (by omega)

/-- The handlers of the two machines keep them in agreement, from an advanced `pc` in 1..50. -/
theorem Effect.agrees (h : Effect s i t) (ha : m.Agrees s) (h1 : 1 ≤ m.pc) (h2 : m.pc ≤ 50) :
    (m.handle i).Agrees t ∧ PcBounded (m.handle i).pc := by
  have samePc : PcBounded m.pc := ⟨by omega, by omega⟩
  have hvalid := validAddress_pcRelative_iff ha.pc h1 h2
  cases h with
  | @branch _ _ _ off9 h =>
    have hoff := off9_bounds off9
    rw [Wide.handle, if_pos (ha.cc ▸ h)]
    exact ⟨{ ha with pc := pcRelative_of_pc ha.pc off9 }, show _ ≤ m.pc + _ by omega, show m.pc + _ ≤ _ by omega⟩
  | noBranch h =>
    rw [Wide.handle, if_neg (by simp [← ha.cc, h])]
    exact ⟨ha, samePc⟩
  | operate h =>
    rw [Wide.handle_of_operateResult ha.x h]
    exact ⟨{ ha with x := by simp [Wide.define, ha.x], cc := define_cc _ _ s }, samePc⟩
  | @load dr off9 h =>
    have hv := (hvalid off9).mpr h
    rw [Wide.handle, if_pos hv, pcRelative_of_pc ha.pc, toNat_of_validAddress hv]
    exact ⟨{ ha with x := by simp [ha.x, ha.mem] }, samePc⟩
  | @store sr off9 h =>
    have hv := (hvalid off9).mpr h
    rw [Wide.handle, if_pos hv, pcRelative_of_pc ha.pc, toNat_of_validAddress hv]
    exact ⟨{ ha with mem := by simp [State.reg, ha.x, ha.mem] }, samePc⟩
  | @loadError _ off9 h | @storeError _ off9 h =>
    rw [Wide.handle, if_neg (mt (hvalid off9).mp (by omega)), pcRelative_of_pc ha.pc]
    exact ⟨{ ha with run := rfl }, samePc⟩
  | out => exact ⟨{ ha with out := by simp [Wide.handle, State.reg, ha.x, ha.out] }, samePc⟩
  | halt => exact ⟨{ ha with run := rfl }, samePc⟩
  | noService => exact ⟨ha, samePc⟩
  | illegal h =>
    rw [Wide.handle_of_illegal h]
    exact ⟨{ ha with run := by rw [ha.pc]; rfl }, samePc⟩

theorem Wide.Agrees.run_eq_running_iff (ha : m.Agrees s) : s.run = .running ↔ m.run = .running := by
  have h := ha.run
  cases hm : m.run <;> rw [hm] at h <;> simp [h.trans]

/-! One cycle of the unbounded machine, in the three cases of `step_cases`. -/

theorem Wide.cycle_of_fetch (hr : m.run = .running) (hp : validAddress m.pc) :
    m.cycle = ({ m with ir := m.mem.read m.pc.toNat, pc := m.pc + 1 } : Wide).handle (decode (m.mem.read m.pc.toNat)) := by
  rw [Wide.cycle, hr]
  exact if_pos hp

theorem Wide.cycle_of_fetch_error (hr : m.run = .running) (hp : ¬validAddress m.pc) :
    m.cycle = { m with run := .addressError .fetch m.pc } := by
  rw [Wide.cycle, hr]
  exact if_neg hp

theorem Wide.cycle_of_terminal (hr : m.run ≠ .running) : m.cycle = m := by
  unfold Wide.cycle
  split
  · next h => exact absurd h hr
  all_goals rfl

/-- One step of both machines keeps them in agreement: the same bound is checked, the same word fetched, and the handlers
agree (`Effect.agrees`). -/
theorem step_agrees (ha : m.Agrees s) (hb : PcBounded m.pc) (h : step s = .next t) :
    m.cycle.Agrees t ∧ PcBounded m.cycle.pc := by
  obtain ⟨hlow, hhigh⟩ := hb
  have hvalid : validAddress m.pc ↔ s.pc.toNat < 50 := ha.pc ▸ validAddress_iff (by omega) (by omega)
  rcases step_cases s with ⟨hr, hp, hs⟩ | ⟨hr, hp, hs⟩ | ⟨hr, hs⟩
  · have hv := hvalid.mpr hp
    have hw : s.mem.read s.pc.toNat = m.mem.read m.pc.toNat := by rw [ha.mem, ha.pc, toNat_of_validAddress hv]
    rw [hw] at hs
    rw [Wide.cycle_of_fetch (ha.run_eq_running_iff.mp hr) hv]
    obtain ⟨hv0, hv50⟩ := hv
    exact (exec_eq_next_iff.mp (hs.symm.trans h)).agrees
      { ha with pc := by rw [State.setPc_pc, ha.pc, BitVec.ofInt_add]; rfl, ir := rfl }
      (show 1 ≤ m.pc + 1 by omega) (show m.pc + 1 ≤ 50 from hv50)
  · cases hs.symm.trans h
    rw [Wide.cycle_of_fetch_error (ha.run_eq_running_iff.mp hr) (mt hvalid.mp (by omega))]
    exact ⟨{ ha with run := congrArg (fun a => RunState.aborted (.addressError .fetch a)) ha.pc }, hlow, hhigh⟩
  · cases hs.symm.trans h
    rw [Wide.cycle_of_terminal (mt ha.run_eq_running_iff.mpr hr)]
    exact ⟨ha, hlow, hhigh⟩

/-- Settles O48, by induction on the number of steps: agreement with `pc` in -255..305 is kept by one step of both
machines (`step_agrees`). -/
theorem sixteenBitPcCannotBeToldFromTheUnboundedOne : Obligations.SixteenBitPcCannotBeToldFromTheUnboundedOne := by
  intro m s ha h1 h2 k
  induction k generalizing m s with
  | zero => exact ⟨s, rfl, ha, h1, h2⟩
  | succ k ih =>
    obtain ⟨u, hu⟩ := step_eq_next s
    obtain ⟨ha', h1', h2'⟩ := step_agrees ha ⟨h1, h2⟩ hu
    rw [core_run_succ k hu]
    exact ih _ u ha' h1' h2'

/-! ## The registers before the run -/

/-- A load of words that is done writes memory only (R192). -/
theorem loadWords_reg {ws : List Word} {l l' : Lifecycle} (h : loadWords ws l = .done l') (r : RegIdx) :
    l'.state.reg r = l.state.reg r := by
  rcases loadWords_cases ws l with ⟨s, rfl, -, -, hl⟩ | ⟨_, _, -, -, hl⟩ | ⟨-, hl⟩
  · cases hl.symm.trans h
    rfl
  · cases hl.symm.trans h
  · cases hl.symm.trans h

/-- A load of text that is done is a load of words (R195). -/
theorem loadText_reg {lines : List String} {l l' : Lifecycle} (h : loadText lines l = .done l') (r : RegIdx) :
    l'.state.reg r = l.state.reg r := by
  rcases loadText_cases lines l with ⟨_, _, -, hl⟩ | ⟨_, _, -, -, hl⟩ | ⟨-, hl⟩
  · cases hl.symm.trans h
  · exact loadWords_reg (hl.symm.trans h) r
  · cases hl.symm.trans h

/-- Settles O49: the reset values by evaluation, the two loads by what a load can do. -/
theorem registersHoldTheirIndexUntilTheRun : Obligations.RegistersHoldTheirIndexUntilTheRun :=
  ⟨by decide, fun _ _ _ => loadWords_reg, fun _ _ _ => loadText_reg⟩

end Sys2Proof.Machine
end

section
/-! PROOFS. The statements about memory: the bound of the two primitives, the one PC-relative sum of BR, LD and ST, and
that a store is seen by what reads the cell next. They rest on the effects of LD, ST and BR (`Effect`). -/

namespace Sys2Proof.Machine

open Sys2Proof.Machine.BitVector (field sext16)

variable {w : Word} {i : Instr} {s : State}

/-! ## The bound -/

/-- Settles O34: the primitives by their bound, the fetch, LD and ST by their error. -/
theorem memoryPrimitivesCheckTheBoundFirst : Obligations.MemoryPrimitivesCheckTheBoundFirst := by
  refine ⟨fun _ _ _ => ⟨fun h => memRead_ok (Nat.lt_succ_of_le h), memRead_error⟩,
    fun _ a v s => ⟨fun h => ?_, memWrite_error⟩, fun _ => step_of_fetch_error,
    fun _ _ _ h => ⟨(Effect.loadError h).exec_eq, (Effect.storeError h).exec_eq⟩⟩
  exact ⟨_, memWrite_ok (Nat.lt_succ_of_le h), s.mem.read_write_same _ v, fun _ hne => s.mem.read_write_other hne v,
    fun _ => rfl, rfl, rfl, rfl, rfl, rfl⟩

/-! ## The PC-relative sum -/

/-- Sign extension keeps the signed value of an offset (R81). -/
theorem toInt_sext16 (off9 : BitVec 9) : (sext16 off9).toInt = off9.toInt :=
  BitVec.toInt_signExtend_of_le (by decide)

/-- The PC-relative address as a number: the exact sum modulo 65536 (R43, D1). -/
theorem toNat_pcRelative (s : State) (off9 : BitVec 9) :
    ((pcRelative s off9).toNat : Int) = ((s.pc.toNat : Int) + off9.toInt) % 65536 := by
  rw [pcRelative_of_pc (a := s.pc.toNat) (by simp), toNat_ofInt16]

/-- The opcode field of a word is the opcode of the instruction it decodes to (R57). -/
theorem opcodeOf_of_decode (h : decode w = i) : opcodeOf w = i.opcode.toFin :=
  Fin.ext (congrArg BitVec.toNat (h ▸ (decode_opcode w).symm))

theorem off9_of_decode_br {n z p : Bool} {off9 : BitVec 9} (h : decode w = .br n z p off9) : off9 = field w 0 9 := by
  cases (decode_op0 (opcodeOf_of_decode h)).symm.trans h
  rfl

theorem off9_of_decode_ld {dr : RegIdx} {off9 : BitVec 9} (h : decode w = .ld dr off9) : off9 = field w 0 9 := by
  cases (decode_op2 (opcodeOf_of_decode h)).symm.trans h
  rfl

theorem off9_of_decode_st {sr : RegIdx} {off9 : BitVec 9} (h : decode w = .st sr off9) : off9 = field w 0 9 := by
  cases (decode_op3 (opcodeOf_of_decode h)).symm.trans h
  rfl

/-- Settles O35: the sum as a number, the field the decoder takes it from, and the effects that use it. -/
theorem effectiveAddressIsThePcRelativeSum : Obligations.EffectiveAddressIsThePcRelativeSum := by
  refine ⟨fun off9 s => ?sum, fun w => ⟨fun _ _ _ _ => off9_of_decode_br, fun _ _ => off9_of_decode_ld,
    fun _ _ => off9_of_decode_st⟩, fun _ _ _ _ _ h => (Effect.branch h).exec_eq, fun r off9 s => ⟨fun h => ?inRange,
    fun h => ?outOfRange⟩⟩
  case sum =>
    obtain ⟨hlow, hhigh⟩ := off9_bounds off9
    exact ⟨by rw [toInt_sext16, toNat_pcRelative], toInt_sext16 off9, hlow, hhigh, rfl⟩
  case inRange =>
    exact ⟨⟨_, (Effect.load h).exec_eq, s.reg_setReg_same r _⟩, ⟨_, (Effect.store h).exec_eq, s.mem.read_write_same _ _⟩⟩
  case outOfRange =>
    exact ⟨⟨_, (Effect.loadError h).exec_eq, rfl⟩, ⟨_, (Effect.storeError h).exec_eq, rfl⟩⟩

/-- Settles O36: from `pc` in 1..50 the exact sum lies in -255..305, so the reduction adds 65536 to the negative ones. -/
theorem reducedAddressIsInRangeExactlyWhenTheExactSumIs :
    Obligations.ReducedAddressIsInRangeExactlyWhenTheExactSumIs := by
  intro off9 s h1 h2
  have hsum := toNat_pcRelative s off9
  obtain ⟨hlow, hhigh⟩ := off9_bounds off9
  refine ⟨⟨?_, ?_⟩, ?_, ?_⟩ <;> omega

/-! ## A store is seen by what reads the cell next -/

/-- One cycle whose fetched word is a ST in range, as one state. -/
theorem step_of_store {sr : RegIdx} {off9 : BitVec 9} (hr : s.run = .running) (hp : s.pc.toNat < 50)
    (hd : decode (s.mem.read s.pc.toNat) = .st sr off9) (ha : (s.pc + 1 + sext16 off9).toNat < 50) :
    step s = .next (((s.setIr (s.mem.read s.pc.toNat)).setPc (s.pc + 1)).setMem
      (s.mem.write (s.pc + 1 + sext16 off9).toNat (s.reg sr))) := by
  have hea : pcRelative ((s.setIr (s.mem.read s.pc.toNat)).setPc (s.pc + 1)) off9 = s.pc + 1 + sext16 off9 :=
    pcRelative_eq _ _
  rw [step_of_fetch hr hp, hd, (Effect.store (hea ▸ ha)).exec_eq, hea]
  rfl

/-- A running machine whose next cell holds `w` executes `w`. -/
theorem step_of_read_pc (hr : s.run = .running) (hp : s.pc.toNat < 50) (hw : s.mem.read s.pc.toNat = w) :
    step s = exec (decode w) { s with ir := w, pc := s.pc + 1 } :=
  hw ▸ step_of_fetch hr hp

/-- A LD of a cell that holds `w` puts `w` in its register. -/
theorem execLd_of_read {dr : RegIdx} {off9 : BitVec 9} (h : (pcRelative s off9).toNat < 50)
    (hw : s.mem.read (pcRelative s off9).toNat = w) : exec (.ld dr off9) s = .next (s.setReg dr w) :=
  hw ▸ (Effect.load h).exec_eq

/-- Settles O37: the cell reads the stored word after the ST's cycle (`step_of_store`); with offset 0 it is the cell of
the advanced `pc`, the next one fetched. -/
theorem storeIsSeenByTheNextFetchAndLoad : Obligations.StoreIsSeenByTheNextFetchAndLoad := by
  intro s sr off9 hr hp hd ha
  have hread := s.mem.read_write_same (s.pc + 1 + sext16 off9).toNat (s.reg sr)
  refine ⟨_, step_of_store hr hp hd ha, hr, rfl, rfl, hread, fun h0 => ?nextFetch, fun dr off9' hea => ?nextLoad⟩
  case nextFetch =>
    have hea : s.pc + 1 + sext16 off9 = s.pc + 1 := by
      rw [h0]
      exact BitVec.add_zero _
    rw [hea] at ha hread ⊢
    exact step_of_read_pc hr ha hread
  case nextLoad =>
    exact ⟨_, execLd_of_read (hea ▸ ha) (hea ▸ hread), State.reg_setReg_same _ _ _⟩

end Sys2Proof.Machine
end

section
/-! PROOFS. The statements about the encoding. One fact carries most of them: a word decodes to a well-formed instruction
exactly when it agrees with the encoded word on the bits some rule reads (`decode_eq_iff`). -/

namespace Sys2Proof

open Sys2Proof.Machine (opcodeOf_of_decode exec_has_effect step_eq_next)
open Sys2Proof.Machine.BitVector (field regIndex regField)

variable {w w' : Word} {i : Instr}

/-! ## Masks as fields -/

/-- `w` and `w'` have the same bits in each field, a field given by its lowest bit and its width. -/
def AgreeOn (fields : List (Nat × Nat)) (w w' : Word) : Prop :=
  ∀ f ∈ fields, w.extractLsb' f.1 f.2 = w'.extractLsb' f.1 f.2

/-- The ones of the mask are the bits of the fields. -/
abbrev Covers (fields : List (Nat × Nat)) (mask : Word) : Prop :=
  ∀ k : Fin 16, mask.getLsbD k = true ↔ ∃ f ∈ fields, f.1 ≤ k ∧ k.val < f.1 + f.2

/-- Two words agree under a mask exactly when they agree on the fields it covers. -/
theorem and_mask_eq_iff {fields : List (Nat × Nat)} {mask : Word} (hc : Covers fields mask) :
    w &&& mask = w' &&& mask ↔ AgreeOn fields w w' := by
  constructor
  · intro h f hf
    refine BitVec.eq_of_getLsbD_eq fun j hj => ?_
    rcases Nat.lt_or_ge (f.1 + j) 16 with hk | hk
    · have hm : mask.getLsbD (f.1 + j) = true := (hc ⟨f.1 + j, hk⟩).mpr ⟨f, hf, by simp, by simpa using hj⟩
      have hbit := congrArg (·.getLsbD (f.1 + j)) h
      simpa [hm, hj] using hbit
    · simp [BitVec.getLsbD_of_ge _ _ hk]
  · intro h
    refine BitVec.eq_of_getLsbD_eq fun k hk => ?_
    cases hm : mask.getLsbD k with
    | false => simp [hm]
    | true =>
      obtain ⟨f, hf, hlow, hhigh⟩ := (hc ⟨k, hk⟩).mp hm
      have hbit := congrArg (·.getLsbD (k - f.1)) (h f hf)
      simpa [hm, Nat.add_sub_cancel' hlow, Nat.sub_lt_left_of_lt_add hlow hhigh] using hbit

/-- The fields of an instruction's word that some rule reads (R53, R55, R58). -/
def Instr.readFields : Instr → List (Nat × Nat)
  | .br .. => [(12, 4), (11, 1), (10, 1), (9, 1), (0, 9)]
  | .addReg .. | .andReg .. => [(12, 4), (9, 3), (6, 3), (5, 1), (0, 3)]
  | .addImm .. | .andImm .. => [(12, 4), (9, 3), (6, 3), (5, 1), (0, 5)]
  | .ld .. | .st .. => [(12, 4), (9, 3), (0, 9)]
  | .not .. => [(12, 4), (9, 3), (6, 3)]
  | .trapOut | .trapHalt | .trapOther _ => [(12, 4), (0, 8)]
  | _ => [(12, 4)]

theorem covers_readMask (i : Instr) : Covers i.readFields i.readMask := by
  cases i <;> dsimp only [Instr.readFields, Instr.readMask] <;> decide

/-! ## The fields of a word laid out in one of the formats (R52)

`simp` may not add up the widths of the parts (`-Nat.reduceAdd`): the lemmas about `++` speak of the sums. -/

theorem extractLsb'_one_eq_ofBool_iff {k : Nat} {b : Bool} (hk : k < 16) :
    w.extractLsb' k 1 = BitVec.ofBool b ↔ w[k] = b := by
  rw [BitVec.eq_of_getLsbD_eq_iff]
  simp [BitVec.getLsbD_eq_getElem hk]

section
variable (op : BitVec 4) (a b c : BitVec 3) (mode : Bool)

theorem agreeOn_formatB_iff (n z p : Bool) (off9 : BitVec 9) :
    AgreeOn [(12, 4), (11, 1), (10, 1), (9, 1), (0, 9)] w
        (op ++ BitVec.ofBool n ++ BitVec.ofBool z ++ BitVec.ofBool p ++ off9) ↔
      field w 12 4 = op ∧ w[11] = n ∧ w[10] = z ∧ w[9] = p ∧ field w 0 9 = off9 := by
  simp (disch := decide) [AgreeOn, field, BitVec.extractLsb'_append_eq_of_le, BitVec.extractLsb'_append_eq_of_add_le,
    extractLsb'_one_eq_ofBool_iff, BitVec.extractLsb'_eq_self, -Nat.reduceAdd]

theorem agreeOn_formatR_iff :
    AgreeOn [(12, 4), (9, 3), (6, 3), (5, 1), (0, 3)] w (op ++ a ++ b ++ BitVec.ofBool mode ++ 0b00#2 ++ c) ↔
      field w 12 4 = op ∧ field w 9 3 = a ∧ field w 6 3 = b ∧ w[5] = mode ∧ field w 0 3 = c := by
  simp (disch := decide) [AgreeOn, field, BitVec.extractLsb'_append_eq_of_le, BitVec.extractLsb'_append_eq_of_add_le,
    extractLsb'_one_eq_ofBool_iff, BitVec.extractLsb'_eq_self, -Nat.reduceAdd]

theorem agreeOn_formatI_iff (imm5 : BitVec 5) :
    AgreeOn [(12, 4), (9, 3), (6, 3), (5, 1), (0, 5)] w (op ++ a ++ b ++ BitVec.ofBool mode ++ imm5) ↔
      field w 12 4 = op ∧ field w 9 3 = a ∧ field w 6 3 = b ∧ w[5] = mode ∧ field w 0 5 = imm5 := by
  simp (disch := decide) [AgreeOn, field, BitVec.extractLsb'_append_eq_of_le, BitVec.extractLsb'_append_eq_of_add_le,
    extractLsb'_one_eq_ofBool_iff, BitVec.extractLsb'_eq_self, -Nat.reduceAdd]

theorem agreeOn_formatM_iff (off9 : BitVec 9) :
    AgreeOn [(12, 4), (9, 3), (0, 9)] w (op ++ a ++ off9) ↔
      field w 12 4 = op ∧ field w 9 3 = a ∧ field w 0 9 = off9 := by
  simp (disch := decide) [AgreeOn, field, BitVec.extractLsb'_append_eq_of_le, BitVec.extractLsb'_append_eq_of_add_le,
    BitVec.extractLsb'_eq_self, -Nat.reduceAdd]

theorem agreeOn_formatN_iff :
    AgreeOn [(12, 4), (9, 3), (6, 3)] w (op ++ a ++ b ++ 0b111111#6) ↔
      field w 12 4 = op ∧ field w 9 3 = a ∧ field w 6 3 = b := by
  simp (disch := decide) [AgreeOn, field, BitVec.extractLsb'_append_eq_of_le, BitVec.extractLsb'_append_eq_of_add_le,
    BitVec.extractLsb'_eq_self, -Nat.reduceAdd]

theorem agreeOn_formatT_iff (vect8 : BitVec 8) :
    AgreeOn [(12, 4), (0, 8)] w (op ++ 0b0000#4 ++ vect8) ↔ field w 12 4 = op ∧ field w 0 8 = vect8 := by
  simp (disch := decide) [AgreeOn, field, BitVec.extractLsb'_append_eq_of_le, BitVec.extractLsb'_append_eq_of_add_le,
    BitVec.extractLsb'_eq_self, -Nat.reduceAdd]

theorem agreeOn_opcode_iff : AgreeOn [(12, 4)] w (op ++ 0#12) ↔ field w 12 4 = op := by
  simp (disch := decide) [AgreeOn, field, BitVec.extractLsb'_append_eq_of_le, BitVec.extractLsb'_eq_self,
    -Nat.reduceAdd]

end

/-! ## The decoder and the encoder -/

theorem regIndex_eq_iff {f : BitVec 3} {r : RegIdx} : regIndex f = r ↔ f = regField r :=
  ⟨fun h => h ▸ by simp [regIndex, regField], fun h => h ▸ regIndex_regField r⟩

/-- A decoding names the word's opcode, so that the rest (`P`) is to be settled under that opcode only. -/
theorem decode_eq_iff_opcode_and {P : Prop} (h : opcodeOf w = i.opcode.toFin → (decode w = i ↔ P)) :
    decode w = i ↔ field w 12 4 = i.opcode ∧ P := by
  constructor
  · intro hd
    exact ⟨hd ▸ (decode_opcode w).symm, (h (opcodeOf_of_decode hd)).mp hd⟩
  · rintro ⟨hop, hp⟩
    exact (h (Fin.ext (congrArg BitVec.toNat hop))).mpr hp

/-- An illegal opcode alone names its instruction. -/
theorem decode_eq_iff_opcode (h : opcodeOf w = i.opcode.toFin → decode w = i) :
    decode w = i ↔ field w 12 4 = i.opcode :=
  (decode_eq_iff_opcode_and (P := True) fun hop => iff_true_intro (h hop)).trans (and_iff_left trivial)

theorem decodeTrap_eq_trapOut_iff {v : BitVec 8} : decodeTrap v = .trapOut ↔ v = 0x21#8 := by
  rcases decodeTrap_cases v with ⟨rfl, he⟩ | ⟨rfl, he⟩ | ⟨hout, -, he⟩
  · exact iff_of_true he rfl
  · exact iff_of_false (by rw [he]; nofun) (by decide)
  · exact iff_of_false (by rw [he]; nofun) hout

theorem decodeTrap_eq_trapHalt_iff {v : BitVec 8} : decodeTrap v = .trapHalt ↔ v = 0x25#8 := by
  rcases decodeTrap_cases v with ⟨rfl, he⟩ | ⟨rfl, he⟩ | ⟨-, hhalt, he⟩
  · exact iff_of_false (by rw [he]; nofun) (by decide)
  · exact iff_of_true he rfl
  · exact iff_of_false (by rw [he]; nofun) hhalt

theorem trapOther_wf_iff {v : BitVec 8} : (Instr.trapOther v).wf = true ↔ v ≠ 0x21#8 ∧ v ≠ 0x25#8 := by
  simp [Instr.wf, serviceVectors]

theorem decodeTrap_eq_trapOther_iff {u v : BitVec 8} :
    decodeTrap v = .trapOther u ↔ (Instr.trapOther u).wf = true ∧ v = u := by
  rw [trapOther_wf_iff]
  rcases decodeTrap_cases v with ⟨rfl, he⟩ | ⟨rfl, he⟩ | ⟨hout, hhalt, he⟩
  · exact iff_of_false (by rw [he]; nofun) fun ⟨⟨hout, _⟩, hv⟩ => hout hv.symm
  · exact iff_of_false (by rw [he]; nofun) fun ⟨⟨_, hhalt⟩, hv⟩ => hhalt hv.symm
  · rw [he, Instr.trapOther.injEq]
    exact ⟨fun h => ⟨h ▸ ⟨hout, hhalt⟩, h⟩, And.right⟩

/-- The decoder never gives TRAP_OTHER one of the two service vectors. -/
theorem decode_wf (w : Word) : (decode w).wf = true := by
  cases hd : decode w with
  | trapOther v => exact (decodeTrap_eq_trapOther_iff.mp ((decode_op15 (opcodeOf_of_decode hd)).symm.trans hd)).1
  | _ => rfl

/-- A word decodes to a well-formed instruction exactly when it agrees with the instruction's own word on the fields
some rule reads: under the opcode both say that the operands are the fields of the word. -/
theorem decode_eq_iff_agreeOn (hi : i.wf = true) : decode w = i ↔ AgreeOn i.readFields w (encode i) := by
  cases i with
  | br n z p off9 =>
    refine (decode_eq_iff_opcode_and fun hop => ?_).trans (agreeOn_formatB_iff ..).symm
    rw [decode_op0 hop, Instr.br.injEq]
  | addReg dr sr1 sr2 =>
    refine (decode_eq_iff_opcode_and fun hop => ?_).trans (agreeOn_formatR_iff (mode := false) ..).symm
    cases hm : w[5] with
    | false => simp [decode_op1_reg hop hm, regIndex_eq_iff]
    | true => simp [decode_op1_imm hop hm]
  | addImm dr sr1 imm5 =>
    refine (decode_eq_iff_opcode_and fun hop => ?_).trans (agreeOn_formatI_iff (mode := true) ..).symm
    cases hm : w[5] with
    | false => simp [decode_op1_reg hop hm]
    | true => simp [decode_op1_imm hop hm, regIndex_eq_iff]
  | ld dr off9 =>
    refine (decode_eq_iff_opcode_and fun hop => ?_).trans (agreeOn_formatM_iff ..).symm
    rw [decode_op2 hop, Instr.ld.injEq, regIndex_eq_iff]
  | st sr off9 =>
    refine (decode_eq_iff_opcode_and fun hop => ?_).trans (agreeOn_formatM_iff ..).symm
    rw [decode_op3 hop, Instr.st.injEq, regIndex_eq_iff]
  | andReg dr sr1 sr2 =>
    refine (decode_eq_iff_opcode_and fun hop => ?_).trans (agreeOn_formatR_iff (mode := false) ..).symm
    cases hm : w[5] with
    | false => simp [decode_op5_reg hop hm, regIndex_eq_iff]
    | true => simp [decode_op5_imm hop hm]
  | andImm dr sr1 imm5 =>
    refine (decode_eq_iff_opcode_and fun hop => ?_).trans (agreeOn_formatI_iff (mode := true) ..).symm
    cases hm : w[5] with
    | false => simp [decode_op5_reg hop hm]
    | true => simp [decode_op5_imm hop hm, regIndex_eq_iff]
  | not dr sr =>
    refine (decode_eq_iff_opcode_and fun hop => ?_).trans (agreeOn_formatN_iff ..).symm
    rw [decode_op9 hop, Instr.not.injEq, regIndex_eq_iff, regIndex_eq_iff]
  | trapOut =>
    refine (decode_eq_iff_opcode_and fun hop => ?_).trans (agreeOn_formatT_iff ..).symm
    rw [decode_op15 hop, decodeTrap_eq_trapOut_iff]
  | trapHalt =>
    refine (decode_eq_iff_opcode_and fun hop => ?_).trans (agreeOn_formatT_iff ..).symm
    rw [decode_op15 hop, decodeTrap_eq_trapHalt_iff]
  | trapOther vect8 =>
    refine (decode_eq_iff_opcode_and fun hop => ?_).trans (agreeOn_formatT_iff ..).symm
    rw [decode_op15 hop, decodeTrap_eq_trapOther_iff, and_iff_right hi]
  | illegal4 => exact (decode_eq_iff_opcode decode_op4).trans (agreeOn_opcode_iff _).symm
  | illegal6 => exact (decode_eq_iff_opcode decode_op6).trans (agreeOn_opcode_iff _).symm
  | illegal7 => exact (decode_eq_iff_opcode decode_op7).trans (agreeOn_opcode_iff _).symm
  | illegal8 => exact (decode_eq_iff_opcode decode_op8).trans (agreeOn_opcode_iff _).symm
  | illegal10 => exact (decode_eq_iff_opcode decode_op10).trans (agreeOn_opcode_iff _).symm
  | illegal11 => exact (decode_eq_iff_opcode decode_op11).trans (agreeOn_opcode_iff _).symm
  | illegal12 => exact (decode_eq_iff_opcode decode_op12).trans (agreeOn_opcode_iff _).symm
  | illegal13 => exact (decode_eq_iff_opcode decode_op13).trans (agreeOn_opcode_iff _).symm
  | illegal14 => exact (decode_eq_iff_opcode decode_op14).trans (agreeOn_opcode_iff _).symm

/-- The same with the bits some rule reads as a mask. -/
theorem decode_eq_iff (hi : i.wf = true) : decode w = i ↔ w &&& i.readMask = encode i &&& i.readMask :=
  (decode_eq_iff_agreeOn hi).trans (and_mask_eq_iff (covers_readMask i)).symm

/-- Settles O12: the encoded word agrees with itself. -/
theorem decodeOfEncodeIsTheInstruction : Obligations.DecodeOfEncodeIsTheInstruction :=
  fun _ hi => (decode_eq_iff hi).mpr rfl

/-- Settles O13: `decode_eq_iff` for the instruction the word decodes to. -/
theorem encodeOfDecodeAgreesOnReadBits : Obligations.EncodeOfDecodeAgreesOnReadBits :=
  fun w => ⟨decode_wf w, ((decode_eq_iff (decode_wf w)).mp rfl).symm⟩

/-- Settles O14: both words agree with the encoded word of the first one's instruction. -/
theorem ignoredBitsDoNotChangeDecoding : Obligations.IgnoredBitsDoNotChangeDecoding :=
  fun w _ h => (decode_eq_iff (decode_wf w)).mpr (h.trans ((decode_eq_iff (decode_wf w)).mp rfl))

/-! ## The opcode table -/

/-- The rows of one opcode, in the order of the table. -/
def rowsOf (op : BitVec 4) : List Row := opcodeTable.filter fun row => field row.pattern 12 4 == op

/-- The mnemonic of the first of the rows that the word fits; `tableLookup` is the case of the whole table. -/
def firstFit (w : Word) (rows : List Row) : Option String :=
  (rows.find? fun row => w &&& row.mask == row.pattern).map Row.mnemonic

section
variable {m : String} {mask pattern : Word} (rows : List Row)

theorem firstFit_cons_of_fit (h : w &&& mask = pattern) : firstFit w (⟨m, mask, pattern⟩ :: rows) = some m := by
  simp [firstFit, h]

theorem firstFit_cons_of_not_fit (h : w &&& mask ≠ pattern) :
    firstFit w (⟨m, mask, pattern⟩ :: rows) = firstFit w rows := by
  simp [firstFit, h]

end

/-- A pattern without ones outside its mask fits the words that agree with it on the fields of the mask. -/
theorem and_mask_eq_pattern_iff {fields : List (Nat × Nat)} {mask pattern : Word} (hc : Covers fields mask)
    (hp : pattern &&& mask = pattern) : w &&& mask = pattern ↔ AgreeOn fields w pattern := by
  rw [← and_mask_eq_iff hc, hp]

/-- Every mask of the table takes the whole opcode. -/
theorem opcode_of_fits {row : Row} (hrow : row ∈ opcodeTable) (h : w &&& row.mask = row.pattern) :
    field w 12 4 = field row.pattern 12 4 := by
  have hmask : ∀ row ∈ opcodeTable, field row.mask 12 4 = BitVec.allOnes 4 := by decide
  rw [← h]
  simp only [field, BitVec.extractLsb'_and]
  rw [show BitVec.extractLsb' 12 4 row.mask = BitVec.allOnes 4 from hmask row hrow, BitVec.and_allOnes]

/-- Only the rows of the word's own opcode can fit it. -/
theorem tableLookup_eq_firstFit (w : Word) : tableLookup w = firstFit w (rowsOf (field w 12 4)) := by
  unfold tableLookup firstFit rowsOf
  rw [List.find?_filter]
  refine congrArg _ (List.find?_congr fun row hrow => ?_)
  rw [Bool.eq_iff_iff]
  simpa using fun h => (opcode_of_fits hrow h).symm

/-! The patterns of the table: an opcode, with the mode bit of ADD and AND, or with a vector of TRAP. -/

theorem and_opcodeMask_eq_iff {op : BitVec 4} : w &&& 0xF000#16 = op ++ 0#12 ↔ field w 12 4 = op := by
  have hp : ∀ op : BitVec 4, (op ++ 0#12) &&& 0xF000#16 = op ++ 0#12 := by decide
  exact (and_mask_eq_pattern_iff (fields := [(12, 4)]) (by decide) (hp op)).trans (agreeOn_opcode_iff op)

theorem and_modeMask_eq_iff {op : BitVec 4} {mode : Bool} :
    w &&& 0xF020#16 = op ++ 0#6 ++ BitVec.ofBool mode ++ 0#5 ↔ field w 12 4 = op ∧ w[5] = mode := by
  have hp : ∀ (op : BitVec 4) (mode : Bool), (op ++ 0#6 ++ BitVec.ofBool mode ++ 0#5) &&& 0xF020#16 =
      op ++ 0#6 ++ BitVec.ofBool mode ++ 0#5 := by decide
  rw [and_mask_eq_pattern_iff (fields := [(12, 4), (5, 1)]) (by decide) (hp op mode)]
  simp (disch := decide) [AgreeOn, field, BitVec.extractLsb'_append_eq_of_le, BitVec.extractLsb'_append_eq_of_add_le,
    extractLsb'_one_eq_ofBool_iff, BitVec.extractLsb'_eq_self, -Nat.reduceAdd]

theorem and_vectorMask_eq_iff {vect8 : BitVec 8} (hv : vect8 ∈ serviceVectors) :
    w &&& 0xF0FF#16 = 0b1111#4 ++ 0b0000#4 ++ vect8 ↔ field w 12 4 = 0b1111#4 ∧ field w 0 8 = vect8 := by
  have hp : ∀ v ∈ serviceVectors, (0b1111#4 ++ 0b0000#4 ++ v) &&& 0xF0FF#16 = 0b1111#4 ++ 0b0000#4 ++ v := by decide
  exact (and_mask_eq_pattern_iff (fields := [(12, 4), (0, 8)]) (by decide) (hp vect8 hv)).trans
    (agreeOn_formatT_iff 0b1111#4 vect8)

section
variable {op : BitVec 4} {m mReg mImm : String}

/-- The lookup under an opcode with one row. -/
theorem tableLookup_of_oneRow (hop : field w 12 4 = op) (hrows : rowsOf op = [⟨m, 0xF000#16, op ++ 0#12⟩]) :
    tableLookup w = some m := by
  rw [tableLookup_eq_firstFit, hop, hrows]
  exact firstFit_cons_of_fit _ (and_opcodeMask_eq_iff.mpr hop)

/-- The lookup under an opcode with a row for each mode. -/
theorem tableLookup_of_modeRows (hop : field w 12 4 = op)
    (hrows : rowsOf op = [⟨mReg, 0xF020#16, op ++ 0#6 ++ BitVec.ofBool false ++ 0#5⟩,
      ⟨mImm, 0xF020#16, op ++ 0#6 ++ BitVec.ofBool true ++ 0#5⟩]) :
    tableLookup w = some (if w[5] then mImm else mReg) := by
  rw [tableLookup_eq_firstFit, hop, hrows]
  cases hm : w[5] with
  | false => exact firstFit_cons_of_fit _ (and_modeMask_eq_iff.mpr ⟨hop, hm⟩)
  | true =>
    have hreg : ¬(field w 12 4 = op ∧ w[5] = false) := by simp [hm]
    exact (firstFit_cons_of_not_fit _ (and_modeMask_eq_iff.not.mpr hreg)).trans
      (firstFit_cons_of_fit _ (and_modeMask_eq_iff.mpr ⟨hop, hm⟩))

end

theorem mnemonic_decode_of_op1 (h : opcodeOf w = 1) :
    (decode w).mnemonic = if w[5] then "ADD_IMM" else "ADD_REG" := by
  cases hm : w[5] with
  | false => rw [decode_op1_reg h hm]; rfl
  | true => rw [decode_op1_imm h hm]; rfl

theorem mnemonic_decode_of_op5 (h : opcodeOf w = 5) :
    (decode w).mnemonic = if w[5] then "AND_IMM" else "AND_REG" := by
  cases hm : w[5] with
  | false => rw [decode_op5_reg h hm]; rfl
  | true => rw [decode_op5_imm h hm]; rfl

/-- The lookup under the opcode of TRAP. -/
theorem tableLookup_of_trap (hop : field w 12 4 = 0b1111#4) :
    tableLookup w = some (decodeTrap (field w 0 8)).mnemonic := by
  have hrows : rowsOf 0b1111#4 = [⟨"TRAP_OUT", 0xF0FF#16, 0b1111#4 ++ 0b0000#4 ++ 0x21#8⟩,
      ⟨"TRAP_HALT", 0xF0FF#16, 0b1111#4 ++ 0b0000#4 ++ 0x25#8⟩, ⟨"TRAP_OTHER", 0xF000#16, 0b1111#4 ++ 0#12⟩] := by
    decide
  have hfit : ∀ v ∈ serviceVectors, w &&& 0xF0FF#16 = 0b1111#4 ++ 0b0000#4 ++ v ↔ field w 0 8 = v := fun v hv =>
    (and_vectorMask_eq_iff hv).trans (and_iff_right hop)
  rw [tableLookup_eq_firstFit, hop, hrows]
  rcases decodeTrap_cases (field w 0 8) with ⟨hv, he⟩ | ⟨hv, he⟩ | ⟨hout, hhalt, he⟩
  · rw [he]
    exact firstFit_cons_of_fit _ ((hfit _ (by decide)).mpr hv)
  · rw [he]
    have hout : field w 0 8 ≠ 0x21#8 := by rw [hv]; decide
    exact (firstFit_cons_of_not_fit _ ((hfit _ (by decide)).not.mpr hout)).trans
      (firstFit_cons_of_fit _ ((hfit _ (by decide)).mpr hv))
  · rw [he, firstFit_cons_of_not_fit _ ((hfit _ (by decide)).not.mpr hout),
      firstFit_cons_of_not_fit _ ((hfit _ (by decide)).not.mpr hhalt)]
    exact firstFit_cons_of_fit _ (and_opcodeMask_eq_iff.mpr hop)

/-- Settles O15: the opcode of the word is that of its instruction, and the rows of that opcode are told apart as the
decoder tells the instructions apart, by the mode bit or the vector. -/
theorem opcodeTableNamesTheDecodedInstruction : Obligations.OpcodeTableNamesTheDecodedInstruction := by
  intro w
  obtain ⟨i, hd⟩ : ∃ i, decode w = i := ⟨_, rfl⟩
  have hop : field w 12 4 = i.opcode := hd ▸ (decode_opcode w).symm
  rw [hd]
  cases i with
  | br | ld | st | not | illegal4 | illegal6 | illegal7 | illegal8 | illegal10 | illegal11 | illegal12 | illegal13
  | illegal14 =>
    exact tableLookup_of_oneRow hop (by dsimp only [Instr.opcode, Instr.mnemonic]; decide)
  | trapOut | trapHalt | trapOther =>
    rw [tableLookup_of_trap hop, ← decode_op15 (opcodeOf_of_decode hd), hd]
  | addReg | addImm =>
    rw [tableLookup_of_modeRows (mReg := "ADD_REG") (mImm := "ADD_IMM") hop (by dsimp only [Instr.opcode]; decide),
      ← mnemonic_decode_of_op1 (opcodeOf_of_decode hd), hd]
  | andReg | andImm =>
    rw [tableLookup_of_modeRows (mReg := "AND_REG") (mImm := "AND_IMM") hop (by dsimp only [Instr.opcode]; decide),
      ← mnemonic_decode_of_op5 (opcodeOf_of_decode hd), hd]

/-! ## The fields as numbers -/

theorem opcodeOf_eq {k : Fin 16} (h : w.toNat / 4096 = k.val) : opcodeOf w = k :=
  Fin.ext ((opcodeOf_val w).trans h)

/-- A field in the lowest bits is a remainder of the word. -/
theorem toNat_field_zero (w : Word) (len : Nat) [NeZero len] : (field w 0 len).toNat = w.toNat % 2 ^ len := by
  rw [field_toNat, Nat.pow_zero, Nat.div_one]

theorem vector_eq_iff {v : BitVec 8} : field w 0 8 = v ↔ w.toNat % 256 = v.toNat := by
  rw [← BitVec.toNat_inj, toNat_field_zero]
  rfl

/-- An instruction of an illegal opcode is one of the nine illegal instructions. -/
theorem mem_illegal_of_opcode (h : i.opcode.toNat ∈ [4, 6, 7, 8, 10, 11, 12, 13, 14]) :
    i ∈ [Instr.illegal4, .illegal6, .illegal7, .illegal8, .illegal10, .illegal11, .illegal12, .illegal13,
      .illegal14] := by
  cases i with
  | illegal4 | illegal6 | illegal7 | illegal8 | illegal10 | illegal11 | illegal12 | illegal13 | illegal14 => decide
  | _ => simp [Instr.opcode] at h

/-- Settles O16: the decoder's equation of each opcode, its fields read as numbers. -/
theorem decodeExtractsTheListedFields : Obligations.DecodeExtractsTheListedFields := by
  intro w
  have hdr := field_toNat w 9 3
  have hsr1 := field_toNat w 6 3
  refine ⟨fun h => ?br, fun h hm => ?addImm, fun h hm => ?addReg, fun h => ?ld, fun h => ?st, fun h hm => ?andImm,
    fun h hm => ?andReg, fun h => ?not, fun h hv => ?out, fun h hv => ?halt, fun h hout hhalt => ?other,
    fun h => ?illegal⟩
  case br => exact ⟨_, _, _, _, decode_op0 (opcodeOf_eq h), rfl, rfl, rfl, toNat_field_zero w 9⟩
  case addImm => exact ⟨_, _, _, decode_op1_imm (opcodeOf_eq h) hm, hdr, hsr1, toNat_field_zero w 5⟩
  case addReg => exact ⟨_, _, _, decode_op1_reg (opcodeOf_eq h) hm, hdr, hsr1, toNat_field_zero w 3⟩
  case ld => exact ⟨_, _, decode_op2 (opcodeOf_eq h), hdr, toNat_field_zero w 9⟩
  case st => exact ⟨_, _, decode_op3 (opcodeOf_eq h), hdr, toNat_field_zero w 9⟩
  case andImm => exact ⟨_, _, _, decode_op5_imm (opcodeOf_eq h) hm, hdr, hsr1, toNat_field_zero w 5⟩
  case andReg => exact ⟨_, _, _, decode_op5_reg (opcodeOf_eq h) hm, hdr, hsr1, toNat_field_zero w 3⟩
  case not => exact ⟨_, _, decode_op9 (opcodeOf_eq h), hdr, hsr1⟩
  case out => exact (decode_op15 (opcodeOf_eq h)).trans (decodeTrap_eq_trapOut_iff.mpr (vector_eq_iff.mpr hv))
  case halt => exact (decode_op15 (opcodeOf_eq h)).trans (decodeTrap_eq_trapHalt_iff.mpr (vector_eq_iff.mpr hv))
  case other =>
    have hwf : (Instr.trapOther (field w 0 8)).wf = true :=
      trapOther_wf_iff.mpr ⟨vector_eq_iff.not.mpr hout, vector_eq_iff.not.mpr hhalt⟩
    exact ⟨_, (decode_op15 (opcodeOf_eq h)).trans (decodeTrap_eq_trapOther_iff.mpr ⟨hwf, rfl⟩), toNat_field_zero w 8⟩
  case illegal =>
    have hop : (decode w).opcode.toNat = w.toNat / 4096 :=
      (congrArg BitVec.toNat (decode_opcode w)).trans (opcodeOf_val w)
    exact ⟨mem_illegal_of_opcode (hop ▸ h), hop⟩

/-! ## Samples, and that nothing stops the model -/

/-- Settles O17: the twelve words evaluated. -/
theorem sampleWordsDecodeToTheirInstructions : Obligations.SampleWordsDecodeToTheirInstructions := by
  unfold Obligations.SampleWordsDecodeToTheirInstructions
  decide

/-- Settles O20: every instruction has an effect, and every step is an instruction's, a fetch error or the identity. -/
theorem everyInstructionAndStepAnswersANextState : Obligations.EveryInstructionAndStepAnswersANextState :=
  ⟨fun i s => (exec_has_effect i s).imp fun _ => And.left, step_eq_next⟩

end Sys2Proof
end

section
/-! SUPPORT. The bit-vector primitive (40_bitvector.md): what each operation is as a `BitVec` operation, the views as
numbers, and the lists of bits that its operations give. -/

namespace Sys2Proof.Machine.BitVector

variable {j k w : Nat}

/-! ## The operations as `BitVec` operations -/

@[simp] theorem unsignedValue_eq [NeZero w] (v : BitVec w) : unsignedValue v = v.toNat := rfl

@[simp] theorem signedValue_eq [NeZero w] (v : BitVec w) : signedValue v = v.toInt := rfl

@[simp] theorem setSignedValue_eq [NeZero w] (a : Int) : setSignedValue w a = BitVec.ofInt w a := rfl

@[simp] theorem invert_eq [NeZero w] (v : BitVec w) : invert v = ~~~v := rfl

@[simp] theorem and_eq [NeZero w] (a b : BitVec w) : BitVector.and a b = a &&& b := rfl

@[simp] theorem concat_eq [NeZero j] [NeZero k] (a : BitVec j) (b : BitVec k) : concat a b = a ++ b := rfl

/-- The sum through the signed views is the sum of the patterns, at every width (R82). -/
@[simp] theorem add_eq [NeZero w] (a b : BitVec w) : add a b = a + b := by
  simp only [add, setSignedValue_eq, signedValue_eq, BitVec.ofInt_add, BitVec.ofInt_toInt]

theorem signExtend_eq_some_iff [NeZero k] {f : BitVec k} {r : BitVec w} :
    signExtend w f = some r ↔ k ≤ w ∧ f.signExtend w = r := by
  rw [signExtend, Option.ite_none_right_eq_some, Option.some_inj]

theorem zeroExtend_eq_some_iff [NeZero k] {f : BitVec k} {r : BitVec w} :
    zeroExtend w f = some r ↔ k ≤ w ∧ f.setWidth w = r := by
  rw [zeroExtend, Option.ite_none_right_eq_some, Option.some_inj]

theorem slice_eq_some_iff [NeZero w] {v : BitVec w} {start length : Int} {r : BitVec length.toNat} :
    slice v start length = some r ↔ (0 ≤ start ∧ 1 ≤ length ∧ start + length ≤ w) ∧
      v.extractLsb' (w - start.toNat - length.toNat) length.toNat = r := by
  rw [slice, Option.ite_none_right_eq_some, Option.some_inj]

/-- The unsigned encoder is the inverse of the unsigned view, and so never truncates (R74). -/
theorem setUnsignedValue_eq_some_iff [NeZero w] {a : Int} {v : BitVec w} :
    setUnsignedValue w a = some v ↔ (v.toNat : Int) = a := by
  have hv : (v.toNat : Int) < 2 ^ w := by exact_mod_cast v.isLt
  rw [setUnsignedValue, Option.ite_none_right_eq_some, Option.some_inj]
  constructor
  · rintro ⟨⟨_, h0, h⟩, rfl⟩
    rw [BitVec.toNat_ofNat, Int.natCast_emod, Int.toNat_of_nonneg h0, Nat.cast_pow, Nat.cast_ofNat,
      Int.emod_eq_of_lt h0 h]
  · rintro rfl
    exact ⟨⟨NeZero.pos w, Int.natCast_nonneg _, hv⟩, BitVec.ofNat_toNat .. |>.trans (BitVec.setWidth_eq v)⟩

/-! ## Where the partial operations fail (D16) -/

theorem setUnsignedValue_eq_none_iff {a : Int} : setUnsignedValue w a = none ↔ w = 0 ∨ a < 0 ∨ 2 ^ w ≤ a := by
  rw [setUnsignedValue, ite_eq_right_iff, imp_iff_not (by simp)]
  omega

theorem slice_eq_none_iff [NeZero w] {v : BitVec w} {start length : Int} :
    slice v start length = none ↔ start < 0 ∨ length ≤ 0 ∨ (w : Int) < start + length := by
  rw [slice, ite_eq_right_iff, imp_iff_not (by simp)]
  omega

theorem signExtend_eq_none_iff [NeZero k] {f : BitVec k} : signExtend w f = none ↔ w < k := by
  rw [signExtend, ite_eq_right_iff, imp_iff_not (by simp), not_le]

theorem zeroExtend_eq_none_iff [NeZero k] {f : BitVec k} : zeroExtend w f = none ↔ w < k := by
  rw [zeroExtend, ite_eq_right_iff, imp_iff_not (by simp), not_le]

/-! ## The views as numbers -/

/-- A number below `2 ^ n` in binary; above it, its remainder. -/
theorem mod_two_pow_eq_sum_testBit (x n : Nat) : x % 2 ^ n = ∑ i ∈ Finset.range n, (x.testBit i).toNat * 2 ^ i := by
  induction n with
  | zero => simp [Nat.mod_one]
  | succ n ih => rw [Finset.sum_range_succ, ← ih, Nat.mod_pow_succ, Nat.toNat_testBit, Nat.mul_comm]

theorem toNat_eq_sum_getLsbD (v : BitVec w) : v.toNat = ∑ i ∈ Finset.range w, (v.getLsbD i).toNat * 2 ^ i := by
  rw [← Nat.mod_eq_of_lt v.isLt, mod_two_pow_eq_sum_testBit]
  rfl

theorem toNat_eq_sum_getMsbD (v : BitVec w) :
    v.toNat = ∑ i ∈ Finset.range w, (v.getMsbD i).toNat * 2 ^ (w - 1 - i) := by
  rw [toNat_eq_sum_getLsbD, ← Finset.sum_range_reflect]
  refine Finset.sum_congr rfl fun i hi => ?_
  simp [BitVec.getMsbD_eq_getLsbD, Finset.mem_range.mp hi]

/-- The two views differ by `2 ^ w` times the most significant bit (R86). -/
theorem toInt_eq_toNat_sub (v : BitVec w) : v.toInt = (v.toNat : Int) - 2 ^ w * (v.msb.toNat : Int) := by
  rw [BitVec.toInt_eq_msb_cond]
  cases v.msb <;> simp

/-- The signed encoder truncates modulo `2 ^ w` (R76). -/
theorem toNat_ofInt (w : Nat) (a : Int) : ((BitVec.ofInt w a).toNat : Int) = a % 2 ^ w := by
  rw [BitVec.toNat_ofInt, Int.toNat_of_nonneg (Int.emod_nonneg a (by positivity)), Nat.cast_pow, Nat.cast_ofNat]

/-- An integer in the signed range survives the signed encoder (R86). -/
theorem toInt_ofInt_of_inRange {n : Nat} {a : Int} (hlow : -2 ^ n ≤ a) (hhigh : a ≤ 2 ^ n - 1) :
    (BitVec.ofInt (n + 1) a).toInt = a :=
  BitVec.toInt_ofInt_eq_self n.succ_pos hlow (Int.lt_of_le_sub_one hhigh)

/-- The complement under the signed view (R78). -/
theorem toInt_not [NeZero w] (v : BitVec w) : (~~~v).toInt = -v.toInt - 1 := by
  have h := v.isLt
  have hm : (~~~v).msb = !v.msb := by simp [BitVec.msb_not, NeZero.pos w]
  have hu : ((~~~v).toNat : Int) = 2 ^ w - 1 - v.toNat := by
    rw [BitVec.toNat_not, Nat.sub_sub, Nat.cast_sub (by omega)]
    push_cast
    ring
  rw [toInt_eq_toNat_sub, toInt_eq_toNat_sub, hm, hu]
  cases v.msb
  · simp; ring
  · simp; ring

/-! ## Lists of bits -/

theorem bits_eq_bits_iff {a : BitVec j} {b : BitVec k} :
    bits a = bits b ↔ j = k ∧ ∀ i, i < j → a.getMsbD i = b.getMsbD i := by
  constructor
  · intro h
    have hjk : j = k := by simpa using congrArg List.length h
    subst hjk
    exact ⟨rfl, fun _ _ => by rw [eq_of_bits_eq h]⟩
  · rintro ⟨rfl, h⟩
    rw [BitVec.eq_of_getMsbD_eq h]

theorem equal_iff [NeZero j] [NeZero k] {a : BitVec j} {b : BitVec k} :
    equal a b = true ↔ j = k ∧ ∀ i, i < j → a.getMsbD i = b.getMsbD i := beq_iff_eq.trans bits_eq_bits_iff

/-- A vector that puts copies of one bit before the bits of `f`. -/
theorem bits_eq_replicate_append {r : BitVec w} {f : BitVec k} {b : Bool} (h : k ≤ w)
    (hfill : ∀ i, i < w - k → r.getMsbD i = b) (hfield : ∀ i, i < k → r.getMsbD (w - k + i) = f.getMsbD i) :
    bits r = List.replicate (w - k) b ++ bits f := by
  refine List.ext_getElem (by simp; omega) fun i hi _ => ?_
  rw [bits_length] at hi
  rw [bits_getElem]
  rcases Nat.lt_or_ge i (w - k) with hlt | hge
  · rw [List.getElem_append_left (by simpa using hlt), List.getElem_replicate, hfill i hlt]
  · obtain ⟨m, rfl⟩ := Nat.exists_eq_add_of_le hge
    rw [List.getElem_append_right (by simp), bits_getElem, hfield m (by omega)]
    simp

theorem bits_signExtend (h : k ≤ w) (f : BitVec k) :
    bits (f.signExtend w) = List.replicate (w - k) (f.getMsbD 0) ++ bits f := by
  refine bits_eq_replicate_append h (fun i hi => ?_) fun i hi => ?_
  · rw [BitVec.getMsbD_signExtend, if_neg (by omega), decide_eq_true (by omega), Bool.true_and,
      BitVec.msb_eq_getMsbD_zero]
  · rw [BitVec.getMsbD_signExtend, if_pos (by omega), decide_eq_true (by omega), Bool.true_and,
      show w - k + i + k - w = i by omega]

theorem bits_setWidth (h : k ≤ w) (f : BitVec k) :
    bits (f.setWidth w) = List.replicate (w - k) false ++ bits f := by
  refine bits_eq_replicate_append h (fun i hi => ?_) fun i hi => ?_
  · rw [BitVec.getMsbD_setWidth, decide_eq_false (by omega), Bool.false_and]
  · rw [BitVec.getMsbD_setWidth, decide_eq_true (by omega), Bool.true_and, show w - k + i + k - w = i by omega]

/-- The bits of a slice are those of its positions (R77). -/
theorem bits_of_slice [NeZero w] {v : BitVec w} {start length : Int} {r : BitVec length.toNat}
    (h : slice v start length = some r) : bits r = ((bits v).drop start.toNat).take length.toNat := by
  obtain ⟨hfits, rfl⟩ := slice_eq_some_iff.mp h
  refine List.ext_getElem (by simp; omega) fun i hi _ => ?_
  rw [bits_length] at hi
  simp only [bits_getElem, List.getElem_take, List.getElem_drop, BitVec.getMsbD_extractLsb']
  obtain ⟨lo, hlo⟩ : ∃ lo, w = start.toNat + length.toNat + lo := Nat.exists_eq_add_of_le (by omega)
  rw [show w - start.toNat - length.toNat = lo by omega, show w - (lo + length.toNat - i) = start.toNat + i by omega,
    decide_eq_true hi, decide_eq_true (by omega), Bool.true_and, Bool.true_and]

theorem exists_slice [NeZero w] (v : BitVec w) {start length : Nat} (hl : 1 ≤ length) (h : start + length ≤ w) :
    ∃ r, slice v start length = some r :=
  ⟨_, slice_eq_some_iff.mpr ⟨by omega, rfl⟩⟩

/-! ## Tilings (R87) -/

/-- A tiling is its first slice and the tiling of the rest. -/
theorem tile_cons_eq_some_iff [NeZero w] {v : BitVec w} {start n : Nat} {ns : List Nat} {l : List Bool} :
    tile v start (n :: ns) = some l ↔
      ∃ piece rest, slice v start n = some piece ∧ tile v (start + n) ns = some rest ∧ bits piece ++ rest = l := by
  simp [tile, Option.bind_eq_some_iff]

theorem tile_eq_drop [NeZero w] (v : BitVec w) (start : Nat) (lengths : List Nat) (hpos : ∀ n ∈ lengths, 1 ≤ n)
    (hsum : start + lengths.sum = w) : tile v start lengths = some ((bits v).drop start) := by
  induction lengths generalizing start with
  | nil =>
    have hend : w ≤ start := hsum.ge
    simp [tile, hend]
  | cons n ns ih =>
    rw [List.sum_cons] at hsum
    obtain ⟨piece, hpiece⟩ := exists_slice v (hpos n List.mem_cons_self) (start := start) (by omega)
    have hrest := ih (start + n) (fun m hm => hpos m (List.mem_cons_of_mem n hm)) (by omega)
    refine tile_cons_eq_some_iff.mpr ⟨piece, _, hpiece, hrest, ?_⟩
    rw [bits_of_slice hpiece, ← List.drop_drop]
    exact List.take_append_drop ..

/-! ## Literals (R72) -/

theorem digits_cons (acc : Nat) (c : Char) (cs : List Char) :
    digits acc (c :: cs) = if c ≠ '0' ∧ c ≠ '1' then none else digits (2 * acc + (c == '1').toNat) cs := by
  by_cases h0 : c = '0'
  · simp [digits, h0]
  · by_cases h1 : c = '1' <;> simp [digits, h0, h1]

theorem digits_eq_none_iff {acc : Nat} {cs : List Char} :
    digits acc cs = none ↔ ∃ c ∈ cs, c ≠ '0' ∧ c ≠ '1' := by
  induction cs generalizing acc with
  | nil => simp [digits]
  | cons c cs ih => rw [digits_cons, ite_eq_left_iff, ih, List.exists_mem_cons_iff, or_iff_not_imp_left]

/-- What the digits denote: above their positions the number read before, and at each position their own bit. -/
theorem testBit_of_digits {acc n : Nat} {cs : List Char} (h : digits acc cs = some n) :
    n / 2 ^ cs.length = acc ∧ ∀ i (hi : i < cs.length), n.testBit (cs.length - 1 - i) = (cs[i] == '1') := by
  induction cs generalizing acc with
  | nil =>
    cases h
    simp
  | cons c cs ih =>
    rw [digits_cons, Option.ite_none_left_eq_some] at h
    obtain ⟨hacc, hbits⟩ := ih h.2
    constructor
    · rw [List.length_cons, Nat.pow_succ, ← Nat.div_div_eq_div_mul, hacc]
      have hdigit := (c == '1').toNat_lt
      omega
    · rintro (_ | i) hi
      · rw [List.length_cons, Nat.add_sub_cancel, Nat.sub_zero, Nat.testBit_eq_decide_div_mod_eq, hacc]
        cases hc : c == '1' <;> simp [hc]
      · simpa [Nat.sub_sub, Nat.add_comm] using hbits i (by simpa using hi)

theorem fromLiteral_eq_none_iff {cs : List Char} :
    fromLiteral w cs = none ↔ w = 0 ∨ cs.length ≠ w ∨ ∃ c ∈ cs, c ≠ '0' ∧ c ≠ '1' := by
  rw [fromLiteral, ite_eq_right_iff, Option.map_eq_none_iff, digits_eq_none_iff, imp_iff_not_or, not_and_or,
    or_assoc, Nat.not_le, Nat.lt_one_iff]

/-- The bits of a literal are its characters (R72). -/
theorem bits_of_fromLiteral {cs : List Char} {v : BitVec w} (h : fromLiteral w cs = some v) :
    bits v = cs.map (fun c => c == '1') := by
  obtain ⟨⟨_, hlen⟩, h⟩ := Option.ite_none_right_eq_some.mp h
  obtain ⟨n, hn, rfl⟩ := Option.map_eq_some_iff.mp h
  subst hlen
  refine List.ext_getElem (by simp) fun i hi _ => ?_
  rw [bits_length] at hi
  obtain ⟨-, hdigit⟩ := testBit_of_digits hn
  rw [bits_getElem, List.getElem_map, ← hdigit i hi, BitVec.getMsbD_eq_getLsbD, BitVec.getLsbD_ofNat,
    decide_eq_true hi, decide_eq_true (by omega), Bool.true_and, Bool.true_and]

end Sys2Proof.Machine.BitVector
end

section
/-! PROOFS. The statements about the bit-vector primitive, each assembled from the laws above. -/

namespace Sys2Proof.Machine.BitVector

/-! ## The two views -/

/-- Settles O1: the LSB-0 sum by induction on the width, the MSB-first sum read in reverse. -/
theorem unsignedViewIsWeightedBitSum : Obligations.UnsignedViewIsWeightedBitSum :=
  fun _ _ v => ⟨toNat_eq_sum_getMsbD v, toNat_eq_sum_getLsbD v, Nat.le_sub_one_of_lt v.isLt⟩

/-- The unsigned value as a sum that names the most significant bit first. -/
theorem toNat_eq_msb_add_sum {n : Nat} (v : BitVec (n + 1)) :
    v.toNat = v.msb.toNat * 2 ^ n + ∑ i ∈ Finset.range n, (v.getMsbD (i + 1)).toNat * 2 ^ (n - 1 - i) := by
  rw [toNat_eq_sum_getMsbD, Finset.sum_range_succ', Nat.add_comm]
  simp [BitVec.msb_eq_getMsbD_zero, Nat.sub_sub, Nat.add_comm]

/-- Settles O2: the signed value is the unsigned one less `2 ^ (n + 1)` times the top bit, whose weight `2 ^ n` so
becomes `-2 ^ n`. -/
theorem signedViewGivesTopBitNegativeWeight : Obligations.SignedViewGivesTopBitNegativeWeight := by
  intro n v
  have hview := toInt_eq_toNat_sub v
  rw [← BitVec.msb_eq_getMsbD_zero]
  refine ⟨?sum, fun h => ?clear, fun h => ?set, BitVec.le_toInt v, BitVec.toInt_le⟩
  case sum =>
    rw [signedValue_eq, hview, toNat_eq_msb_add_sum]
    push_cast
    ring
  case clear => simpa [h] using hview
  case set => simpa [h] using hview

/-! ## The encoders -/

/-- Settles O3: the encoder is the library's truncation, and ADD stores its result by definition of `add16`. -/
theorem signedEncoderTruncatesModuloPowerOfTwo : Obligations.SignedEncoderTruncatesModuloPowerOfTwo := by
  refine ⟨fun n a => ⟨toNat_ofInt (n + 1) a, toInt_ofInt_of_inRange, ?_⟩,
    fun dr sr1 sr2 s => ⟨_, exec_of_operateResult rfl, define_reg_same dr _ s⟩⟩
  rw [signedValue_eq, setSignedValue_eq, BitVec.toInt_ofInt]
  exact_mod_cast Int.bmod_emod

/-- Settles O4: the complement at every width; NOT stores `not16`, which is `invert`. -/
theorem invertFlipsEveryBit : Obligations.InvertFlipsEveryBit := by
  refine ⟨fun n v => ⟨fun i hi => ?_, BitVec.toNat_not, toInt_not v, BitVec.not_not⟩,
    fun dr sr s => ⟨_, exec_of_operateResult rfl, define_reg_same dr _ s⟩⟩
  rw [invert_eq, BitVec.getMsbD_not, decide_eq_true hi, Bool.true_and]

/-- Settles O5: the laws of the library's AND. -/
theorem bitwiseAndActsBitByBit : Obligations.BitwiseAndActsBitByBit := by
  intro w _ a b c
  simp only [and_eq]
  exact ⟨fun _ _ => BitVec.getMsbD_and, BitVec.and_comm a b, BitVec.and_assoc a b c, BitVec.and_self,
    BitVec.and_zero, BitVec.and_allOnes⟩

/-- Settles O6: inside its domain `signExtend` is the library's extension. -/
theorem signExtensionReplicatesTopBit : Obligations.SignExtensionReplicatesTopBit := by
  refine ⟨fun k w _ _ f r h => ?_, fun f => signExtend_eq_some_iff.mpr ⟨by decide, rfl⟩,
    fun f => signExtend_eq_some_iff.mpr ⟨by decide, rfl⟩⟩
  obtain ⟨hle, rfl⟩ := signExtend_eq_some_iff.mp h
  refine ⟨fun j hj => ?field, fun j hj hw => ?fill, BitVec.toInt_signExtend_of_le hle⟩
  case field => rw [BitVec.getLsbD_signExtend, if_pos hj, decide_eq_true (hj.trans_le hle), Bool.true_and]
  case fill =>
    rw [BitVec.getLsbD_signExtend, if_neg (Nat.not_lt.mpr hj), decide_eq_true hw, Bool.true_and,
      BitVec.msb_eq_getLsbD_last]

/-- Settles O7: each view determines the pattern, and each encoder inverts its view. -/
theorem encodersAndViewsRoundTrip : Obligations.EncodersAndViewsRoundTrip := by
  refine fun n => ⟨fun _ => toInt_ofInt_of_inRange, fun a h0 h => ?unsigned, fun r =>
    ⟨BitVec.ofInt_toInt, setUnsignedValue_eq_some_iff.mpr rfl, ?views⟩⟩
  case unsigned =>
    have hv : ((BitVec.ofInt (n + 1) a).toNat : Int) = a :=
      (toNat_ofInt (n + 1) a).trans (Int.emod_eq_of_lt h0 (Int.lt_of_le_sub_one h))
    exact ⟨_, setUnsignedValue_eq_some_iff.mpr hv, hv⟩
  case views =>
    rw [signedValue_eq, toInt_eq_toNat_sub, BitVec.msb_eq_getLsbD_last]
    rfl

/-! ## Slices -/

/-- Settles O8: a tiling from position `start` gives the bits from `start` on, by induction on the lengths. -/
theorem slicesThatTileReconstructTheVector : Obligations.SlicesThatTileReconstructTheVector := by
  refine ⟨fun v => ?_, fun w _ v lengths hpos hsum => ?_⟩
  · have h := tile_eq_drop v 0 [4, 3, 9] (by decide) (by decide)
    obtain ⟨a, rest, ha, h, habc⟩ := tile_cons_eq_some_iff.mp h
    obtain ⟨b, rest', hb, h, hbc⟩ := tile_cons_eq_some_iff.mp h
    obtain ⟨c, last, hc, h, hcl⟩ := tile_cons_eq_some_iff.mp h
    cases h
    refine ⟨a, b, c, ha, hb, hc, ?_⟩
    simpa [← hcl, ← hbc] using habc
  · simpa using tile_eq_drop v 0 lengths hpos (by simpa using hsum)

/-! ## The laws of words -/

/-- The signed reading of a sum is the exact one reduced to the signed range (R76). -/
theorem toInt_add16 (a b : Word) : (add16 a b).toInt = (a.toInt + b.toInt).bmod 65536 := by
  rw [add16_eq, BitVec.toInt_add]

/-- No word is its own complement: no integer is `-x - 1` of itself. -/
theorem not16_ne (a : Word) : not16 a ≠ a := by
  intro h
  have hs := (congrArg BitVec.toInt h).symm.trans (toInt_not a)
  omega

/-- The sign of a word is its bit 15 (R88). -/
theorem toInt_neg_iff_bit15 (v : Word) : v.toInt < 0 ↔ v.getLsbD 15 = true := by
  rw [← decide_eq_true_iff (p := v.toInt < 0), ← BitVec.msb_eq_toInt, BitVec.msb_eq_getLsbD_last]

theorem toInt_eq_zero_iff (v : Word) : v.toInt = 0 ↔ v = 0x0000#16 :=
  BitVec.toInt_inj (y := 0x0000#16)

/-- Settles O9: the laws of words from those of every width; the sum's reduction is by one `65536` at most. -/
theorem signAndViewLawsOfWords : Obligations.SignAndViewLawsOfWords := by
  refine ⟨fun k _ f h => BitVec.toInt_signExtend_of_le h, fun a => ⟨toInt_not a, not16_ne a⟩,
    fun a b => ⟨?comm, ?zero, ?complement⟩, fun a b => ?sum,
    fun v => ⟨toInt_neg_iff_bit15 v, toInt_eq_zero_iff v, ?positive⟩⟩
  case comm => rw [add16_eq, add16_eq, BitVec.add_comm]
  case zero => rw [add16_eq, BitVec.add_zero]
  case complement => exact (add16_eq a _).trans (BitVec.add_not_self a)
  case sum =>
    have ha := a.le_toInt
    have ha' := a.toInt_lt
    have hb := b.le_toInt
    have hb' := b.toInt_lt
    rw [toInt_add16, Int.bmod_def]
    omega
  case positive =>
    rw [← Bool.not_eq_true, ← toInt_neg_iff_bit15, ne_eq, ← toInt_eq_zero_iff]
    omega

/-- Settles O10: the sum through the signed views is the sum of the patterns; the address is that sum by definition. -/
theorem additionIsModularUnderBothViews : Obligations.AdditionIsModularUnderBothViews := by
  refine ⟨fun w _ a b => ⟨rfl, ?_⟩, fun _ _ => rfl⟩
  rw [add_eq]
  exact BitVec.toNat_add a b

/-- Settles O11: where each operation fails, and the bits it gives where it does not. -/
theorem primitiveFailsExactlyOutsideItsDomain : Obligations.PrimitiveFailsExactlyOutsideItsDomain := by
  refine ⟨fun w cs => ⟨fromLiteral_eq_none_iff, fun _ => bits_of_fromLiteral⟩,
    fun w a => ⟨setUnsignedValue_eq_none_iff, fun _ => setUnsignedValue_eq_some_iff.mp⟩,
    fun w _ v start length => ⟨slice_eq_none_iff, fun _ => bits_of_slice⟩,
    fun k w _ f => ⟨signExtend_eq_none_iff, fun r h => ?sign⟩,
    fun k w _ f => ⟨zeroExtend_eq_none_iff, fun r h => ?zero⟩⟩
  case sign =>
    obtain ⟨hle, rfl⟩ := signExtend_eq_some_iff.mp h
    exact bits_signExtend hle f
  case zero =>
    obtain ⟨hle, rfl⟩ := zeroExtend_eq_some_iff.mp h
    exact bits_setWidth hle f

/-- Settles O55: the library's zero extension and append, and the low byte as a field. -/
theorem zeroExtensionLowByteAndConcatenation : Obligations.ZeroExtensionLowByteAndConcatenation := by
  refine ⟨fun k w _ _ f h => ?zero, fun v => ⟨slice_eq_some_iff.mpr ⟨by decide, rfl⟩, toNat_field_zero v 8⟩,
    fun j k _ _ a b => ⟨?value, fun i hi => ?high, fun i hi => ?low⟩⟩
  case zero =>
    refine ⟨_, zeroExtend_eq_some_iff.mpr ⟨h, rfl⟩, BitVec.toNat_setWidth_of_le h, fun i hi => ?_, fun i hi => ?_⟩
    · rw [BitVec.getLsbD_setWidth, decide_eq_true (hi.trans_le h), Bool.true_and]
    · rw [BitVec.getLsbD_setWidth, BitVec.getLsbD_of_ge f i hi, Bool.and_false]
  case value =>
    rw [concat_eq, BitVec.toNat_append, ← Nat.shiftLeft_add_eq_or_of_lt b.isLt, Nat.shiftLeft_eq, unsignedValue_eq,
      unsignedValue_eq]
  case high => rw [concat_eq, BitVec.getMsbD_append, if_neg (Nat.not_le.mpr hi)]
  case low => rw [concat_eq, BitVec.getMsbD_append, if_pos (Nat.le_add_right j i), Nat.add_sub_cancel_left]

/-- Settles O56: `equal` compares lists of bits, which have the same length only at one width. -/
theorem equalityIsOfWidthAndPattern : Obligations.EqualityIsOfWidthAndPattern := by
  refine ⟨fun j k _ _ a b => ⟨equal_iff, fun hne => ?_⟩,
    fun w _ a b => ⟨beq_iff_eq.trans ⟨eq_of_bits_eq, congrArg bits⟩, beq_self_eq_true (bits a)⟩⟩
  exact Bool.eq_false_iff.mpr fun h => hne (equal_iff.mp h).1

end Sys2Proof.Machine.BitVector
end

section
/-! PROOFS. The statements about the cycle and the run: what one cycle runs, how it ends, and what many steps do. A run
of several steps is taken apart with `core_run_succ` and `core_run_add`. -/

namespace Sys2Proof.Machine

variable {i : Instr} {s t u : State} {e : Error} {k n : Nat}

/-! ## What a cycle runs -/

/-- Settles O18: the two cases of a running machine, with the advance of a `pc` in range. -/
theorem stepRunsTheDecodedInstruction : Obligations.StepRunsTheDecodedInstruction := by
  refine ⟨?fetched, fun _ => step_of_fetch_error⟩
  rintro s _ hr hp rfl
  exact ⟨step_of_fetch hr hp, toNat_advanced_pc hp⟩

/-! ## How a cycle ends -/

/-- An instruction has one effect in a state. -/
theorem Effect.unique (h : Effect s i t) (h' : Effect s i u) : t = u := by
  cases h.exec_eq.symm.trans h'.exec_eq
  rfl

/-- From a running state only HALT halts (R162). -/
theorem Effect.halted_iff (h : Effect s i t) (hr : s.run = .running) : t.run = .halted ↔ i = .trapHalt := by
  constructor
  · intro ht
    rcases h.report_of_run_ne (by simp [ht, hr]) with ⟨hi, -⟩ | ⟨_, _, ⟨-, hab⟩ | ⟨-, hab⟩, -⟩ | ⟨-, hab⟩
    · exact hi
    all_goals cases hab.symm.trans ht
  · rintro rfl
    rw [h.unique .halt, State.setRun_run]

/-- From a running state an instruction aborts with `e` in exactly three ways: its opcode is illegal, or it is a LD or a
ST out of range (R172, R173). -/
theorem Effect.aborted_iff (h : Effect s i t) (hr : s.run = .running) :
    t.run = .aborted e ↔
      (i.opcode ∈ illegalOpcodes ∧ e = .illegalOpcode i.opcode s.pc) ∨
      (∃ dr off9, i = .ld dr off9 ∧ 50 ≤ (pcRelative s off9).toNat ∧ e = .addressError .ld (pcRelative s off9)) ∨
      (∃ sr off9, i = .st sr off9 ∧ 50 ≤ (pcRelative s off9).toNat ∧ e = .addressError .st (pcRelative s off9)) := by
  constructor
  · intro ht
    rcases h.report_of_run_ne (by simp [ht, hr]) with ⟨-, hab⟩ | ⟨r, off9, ⟨hi, hab⟩ | ⟨hi, hab⟩, hea⟩ | ⟨hop, hab⟩ <;>
      cases hab.symm.trans ht
    · exact .inr (.inl ⟨r, off9, hi, hea, rfl⟩)
    · exact .inr (.inr ⟨r, off9, hi, hea, rfl⟩)
    · exact .inl ⟨hop, rfl⟩
  · rintro (⟨hop, rfl⟩ | ⟨_, _, rfl, hea, rfl⟩ | ⟨_, _, rfl, hea, rfl⟩)
    · rw [h.unique (.illegal hop), raise_run]
    · rw [h.unique (.loadError hea), raise_run]
    · rw [h.unique (.storeError hea), raise_run]

/-- Settles O40: with `pc` in range the ends are those of the fetched instruction's effect, else the one fetch error. -/
theorem cycleEndsTheRunExactlyInTheNamedWays : Obligations.CycleEndsTheRunExactlyInTheNamedWays := by
  intro s t hr h
  rcases Nat.lt_or_ge s.pc.toNat 50 with hp | hp
  · have hge : ¬50 ≤ s.pc.toNat := Nat.not_le.mpr hp
    have he := exec_eq_next_iff.mp ((step_of_fetch hr hp).symm.trans h)
    refine ⟨(he.halted_iff hr).trans (by simp only [hp, true_and]), fun e => (he.aborted_iff hr).trans ?_⟩
    simp only [pcRelative_eq, decode_opcode, State.setPc_pc, hp, hge, true_and, false_and, false_or]
  · have hlt : ¬s.pc.toNat < 50 := Nat.not_lt.mpr hp
    cases (step_of_fetch_error hr hp).symm.trans h
    refine ⟨by simp only [raise_run, hlt, false_and, reduceCtorEq], fun e => ?_⟩
    simp only [raise_run, RunState.aborted.injEq, hp, hlt, true_and, false_and, or_false]
    exact eq_comm

/-! ## Many steps -/

/-- Any number of steps answers a next state. -/
theorem core_run_eq_next (k : Nat) (s : State) : ∃ t, Sys2Proof.core.run k s = .next t := by
  induction k generalizing s with
  | zero => exact ⟨s, rfl⟩
  | succ k ih =>
    obtain ⟨u, hu⟩ := step_eq_next s
    rw [core_run_succ k hu]
    exact ih u

/-- Steps after the first `k` start from the state those reach. -/
theorem core_run_add (m : Nat) (h : Sys2Proof.core.run k s = .next t) :
    Sys2Proof.core.run (k + m) s = Sys2Proof.core.run m t := by
  induction k generalizing s with
  | zero =>
    cases h
    rw [Nat.zero_add]
  | succ k ih =>
    obtain ⟨u, hu⟩ := step_eq_next s
    rw [Nat.succ_add_eq_add_succ, Nat.add_succ, core_run_succ _ hu]
    exact ih ((core_run_succ k hu).symm.trans h)

/-- Settles O19, by induction on the number of steps. -/
theorem terminalStatesAreFrozen : Obligations.TerminalStatesAreFrozen := by
  intro k s hr
  induction k with
  | zero => rfl
  | succ k ih => exact (core_run_succ k (step_of_terminal hr)).trans ih

/-! ## A branch to itself (R108) -/

/-- The cycle that `s` performs next is a taken `BRnzp #-1`. -/
structure BranchesToItself (s : State) : Prop where
  running : s.run = .running
  inRange : s.pc.toNat < 50
  word : s.mem.read s.pc.toNat = 0x0FFF#16
  flags : s.cc ≠ 0b000#3

/-- A BR with all three flags is taken whenever some condition code is set. -/
theorem branchTaken_nzp : ∀ cc : CondCode, cc ≠ 0b000#3 → branchTaken true true true cc = true := by decide

/-- The offset -1 takes the advanced `pc` back. -/
theorem pcRelative_advanced_neg_one (s : State) : pcRelative (s.setPc (s.pc + 1)) 0x1FF#9 = s.pc := by
  rw [pcRelative_eq, State.setPc_pc, show BitVector.sext16 0x1FF#9 = -1 by decide]
  exact add_neg_cancel_right s.pc 1

theorem BranchesToItself.step_eq (h : BranchesToItself s) : step s = .next (s.setIr 0x0FFF#16) := by
  have hd : decode 0x0FFF#16 = .br true true true 0x1FF#9 := by decide
  have htaken : branchTaken true true true ((s.setIr 0x0FFF#16).setPc (s.pc + 1)).cc = true :=
    branchTaken_nzp s.cc h.flags
  have hback : pcRelative ((s.setIr 0x0FFF#16).setPc (s.pc + 1)) 0x1FF#9 = s.pc :=
    pcRelative_advanced_neg_one (s.setIr 0x0FFF#16)
  rw [step_of_fetch h.running h.inRange, h.word, hd, (Effect.branch htaken).exec_eq, hback]
  rfl

/-- Each cycle only fills `IR`, so the next one branches to itself again. -/
theorem BranchesToItself.run_eq (h : BranchesToItself s) (k : Nat) :
    ∃ t, Sys2Proof.core.run k s = .next t ∧ t.run = .running ∧ t.pc = s.pc := by
  induction k generalizing s with
  | zero => exact ⟨s, rfl, h.running, rfl⟩
  | succ k ih =>
    rw [core_run_succ k h.step_eq]
    exact ih (s := s.setIr 0x0FFF#16) { h with }

/-- Settles O42: the hypotheses are those of `BranchesToItself`. -/
theorem branchToItselfNeverEnds : Obligations.BranchToItselfNeverEnds :=
  fun _ hr hp hw hc => BranchesToItself.run_eq ⟨hr, hp, hw, hc⟩

/-! ## The bounded run -/

theorem runFor_of_terminal (hr : s.run ≠ .running) (n : Nat) : runFor n s = .ended s := by
  unfold runFor
  split
  · rfl
  · rfl
  · next h => exact absurd h hr

theorem runFor_zero (hr : s.run = .running) : runFor 0 s = .outOfFuel s := by
  simp only [runFor, hr]

theorem runFor_succ (hr : s.run = .running) (h : step s = .next t) : runFor (n + 1) s = runFor n t := by
  rw [runFor, hr]
  simp only [h]

/-- The report of a bounded run whose last state is `t`. -/
def reportOf (t : State) : RunReport :=
  if t.run = .running then .outOfFuel t else .ended t

theorem reportOf_eq_ended_iff : reportOf s = .ended t ↔ s = t ∧ t.run ≠ .running := by
  unfold reportOf
  split
  · next h => exact ⟨nofun, fun ⟨hst, hne⟩ => absurd (hst ▸ h) hne⟩
  · next h => exact ⟨fun hst => by cases hst; exact ⟨rfl, h⟩, fun ⟨hst, _⟩ => congrArg _ hst⟩

/-- A run bounded by `n` cycles reports on the state that `n` steps reach, a terminal state being left alone (R110). -/
theorem runFor_eq_reportOf (h : Sys2Proof.core.run n s = .next t) : runFor n s = reportOf t := by
  induction n generalizing s with
  | zero =>
    cases h
    by_cases hr : t.run = .running
    · rw [runFor_zero hr, reportOf, if_pos hr]
    · rw [runFor_of_terminal hr, reportOf, if_neg hr]
  | succ n ih =>
    by_cases hr : s.run = .running
    · obtain ⟨u, hu⟩ := step_eq_next s
      rw [runFor_succ hr hu]
      exact ih ((core_run_succ n hu).symm.trans h)
    · cases (terminalStatesAreFrozen (n + 1) s hr).symm.trans h
      rw [runFor_of_terminal hr, reportOf, if_neg hr]

/-- Settles O43: the report is that of the state after `n` steps, and further steps leave a terminal one as it is. -/
theorem boundedRunReportsTheEndOrRunsOutOfCycles : Obligations.BoundedRunReportsTheEndOrRunsOutOfCycles := by
  intro n s
  obtain ⟨t, ht⟩ := core_run_eq_next n s
  rw [runFor_eq_reportOf ht]
  refine ⟨?report, fun u m hu => ?moreCycles⟩
  case report =>
    by_cases hr : t.run = .running
    · exact .inr ⟨t, if_pos hr, hr, ht⟩
    · exact .inl ⟨t, n, if_neg hr, hr, le_rfl, ht⟩
  case moreCycles =>
    obtain ⟨rfl, hr⟩ := reportOf_eq_ended_iff.mp hu
    rw [runFor_eq_reportOf ((core_run_add m ht).trans (terminalStatesAreFrozen m t hr))]
    exact hu

end Sys2Proof.Machine
end

section
/-! PROOFS. The statement about control transfer: a BR only sets `pc`, to its target or to what it was. -/

namespace Sys2Proof.Machine

/-- A BR is taken when some flag it carries has its condition code set: N, Z, P are bits 2, 1, 0 of `CC` (R56). -/
theorem branchTaken_iff {n z p : Bool} {cc : CondCode} :
    branchTaken n z p cc = true ↔
      (n = true ∧ cc.getLsbD 2 = true) ∨ (z = true ∧ cc.getLsbD 1 = true) ∨ (p = true ∧ cc.getLsbD 0 = true) := by
  simp only [branchTaken, Bool.or_eq_true, Bool.and_eq_true, or_assoc, BitVec.getLsbD_eq_getElem, Nat.reduceLT]

/-- Taken or not, a BR is one write of `pc`. -/
theorem exec_br_eq_setPc (n z p : Bool) (off9 : BitVec 9) (s : State) :
    exec (.br n z p off9) s = .next (s.setPc (if branchTaken n z p s.cc then pcRelative s off9 else s.pc)) := by
  cases h : branchTaken n z p s.cc with
  | true => exact (Effect.branch h).exec_eq
  | false => exact (Effect.noBranch h).exec_eq

theorem opcodeOf_of_opcodeMask {w : Word} {op : BitVec 4} (h : w &&& 0xF000#16 = op ++ 0#12) :
    opcodeOf w = op.toFin :=
  Fin.ext (congrArg BitVec.toNat (and_opcodeMask_eq_iff.mp h))

/-- Settles O21: the one write of `pc` leaves the rest as it was, and the error is that of a fetch from the state after
it. -/
theorem branchAddsOffsetExactlyWhenTaken : Obligations.BranchAddsOffsetExactlyWhenTaken := by
  refine ⟨fun w h => decode_op0 (opcodeOf_of_opcodeMask (op := 0#4) h), fun n z p off9 s => ?_⟩
  rw [← branchTaken_iff]
  refine ⟨_, exec_br_eq_setPc n z p off9 s, fun htaken => ?taken, fun hnot => if_neg hnot,
    fun _ => rfl, fun _ => rfl, rfl, rfl, rfl, rfl, fun hr hp => step_of_fetch_error (s := s.setPc _) hr hp⟩
  case taken => rw [if_pos htaken, State.setPc_pc, toNat_pcRelative]

end Sys2Proof.Machine
end

section
/-! PROOFS. The operate instructions (43_operate.md): the decoding of ADD, AND and NOT, the value each of them stores,
and the condition codes, which come from that value and from nowhere else. -/

namespace Sys2Proof.Machine

open Sys2Proof.Machine.BitVector (add16 not16 sext16 toInt_not toInt_neg_iff_bit15 toInt_eq_zero_iff)

variable {i : Instr} {s t : State} {dr : RegIdx} {v w : Word}

/-! ## Decoding under the masks of ADD, AND and NOT -/

theorem opcodeOf_of_modeMask {op : BitVec 4} {mode : Bool}
    (h : w &&& 0xF020#16 = op ++ 0#6 ++ BitVec.ofBool mode ++ 0#5) : opcodeOf w = op.toFin ∧ w[5] = mode := by
  obtain ⟨hop, hmode⟩ := and_modeMask_eq_iff.mp h
  exact ⟨Fin.ext (congrArg BitVec.toNat hop), hmode⟩

/-! ## The condition codes and the frame of a definer -/

theorem ccDescribes_ccOf (a : Int) : CcDescribes (ccOf a) a := by
  unfold CcDescribes ccOf
  rcases lt_trichotomy a 0 with h | rfl | h
  · simp [h, h.ne, h.le]
  · simp
  · simp [h, h.ne', h.not_gt]

/-- The class of a word read as a signed number: bit 15, then whether it is zero (R130). -/
theorem ccOf_toInt (w : Word) :
    ccOf w.toInt = if w.getLsbD 15 then 0b100#3 else if w = 0x0000#16 then 0b010#3 else 0b001#3 := by
  simp only [ccOf, toInt_neg_iff_bit15, toInt_eq_zero_iff]

theorem operateFrame_define (dr : RegIdx) (v : Word) (s : State) : OperateFrame dr s (define dr v s) :=
  ⟨fun _ hr => define_reg_other hr v s, fun _ => rfl, rfl, rfl, rfl, rfl⟩

/-- What ADD, AND and NOT have in common: each completes with its value in `dr`, the value's class in `CC`, and the
rest as it was. -/
theorem exec_operate (h : operateResult s i = some (dr, v)) :
    ∃ t, exec i s = .next t ∧ t.reg dr = v ∧ CcDescribes t.cc (t.reg dr).toInt ∧ OperateFrame dr s t := by
  refine ⟨define dr v s, exec_of_operateResult h, define_reg_same dr v s, ?_, operateFrame_define dr v s⟩
  rw [define_cc, define_reg_same]
  exact ccDescribes_ccOf v.toInt

/-! ## The stored values -/

/-- A sum whose second operand is read as a signed number, as the immediate is (R133). -/
theorem toNat_add16_toInt (a b : Word) : ((add16 a b).toNat : Int) = (a.toNat + b.toInt) % 65536 := by
  rw [← toNat_ofInt16, BitVec.ofInt_add, BitVec.ofInt_natCast, BitVec.ofNat_toNat, BitVec.setWidth_eq,
    BitVec.ofInt_toInt, add16_eq]

/-- The immediate's bit 4 fills the upper bits of the operand (R135). -/
theorem getLsbD_sext16_imm5 (imm5 : BitVec 5) {k : Nat} (hk : k < 16) :
    (sext16 imm5).getLsbD k = imm5.getLsbD (min k 4) := by
  rw [sext16, BitVec.getLsbD_signExtend, decide_eq_true hk, Bool.true_and]
  split
  · next h => rw [Nat.min_eq_left (Nat.le_of_lt_succ h)]
  · next h => rw [Nat.min_eq_right (by omega), BitVec.msb_eq_getLsbD_last]

/-! ## The five instructions -/

/-- Settles O22: the decoder's equation of the mode, and the sum of the patterns. -/
theorem addRegisterStoresTheModularSum : Obligations.AddRegisterStoresTheModularSum := by
  refine ⟨fun w h => ?decoding, fun dr sr1 sr2 s => ?effect⟩
  case decoding =>
    obtain ⟨hop, hmode⟩ := opcodeOf_of_modeMask (op := 0b0001#4) (mode := false) h
    exact ⟨_, _, _, decode_op1_reg hop hmode, rfl, rfl, rfl⟩
  case effect =>
    obtain ⟨t, ht, hreg, hcc, hframe⟩ := exec_operate (i := .addReg dr sr1 sr2) (s := s) rfl
    refine ⟨t, ht, ?_, hcc, hframe⟩
    rw [hreg, add16_eq, BitVec.toNat_add]

/-- Settles O23: as register mode, the second operand being the immediate read as a signed number. -/
theorem addImmediateStoresTheModularSum : Obligations.AddImmediateStoresTheModularSum := by
  refine ⟨fun w h => ?decoding, fun dr sr1 imm5 s => ?effect⟩
  case decoding =>
    obtain ⟨hop, hmode⟩ := opcodeOf_of_modeMask (op := 0b0001#4) (mode := true) h
    exact ⟨_, _, decode_op1_imm hop hmode, rfl, rfl⟩
  case effect =>
    obtain ⟨t, ht, hreg, hcc, hframe⟩ := exec_operate (i := .addImm dr sr1 imm5) (s := s) rfl
    refine ⟨t, ht, ?_, imm5.le_toInt, Int.le_of_lt_add_one imm5.toInt_lt, hcc, hframe⟩
    rw [hreg, toNat_add16_toInt, sext16, BitVec.toInt_signExtend_of_le (by decide)]

/-- Settles O24: the decoder's equation of the mode, and the library's AND bit by bit. -/
theorem andRegisterStoresTheBitwiseAnd : Obligations.AndRegisterStoresTheBitwiseAnd := by
  refine ⟨fun w h => ?decoding, fun dr sr1 sr2 s => ?effect⟩
  case decoding =>
    obtain ⟨hop, hmode⟩ := opcodeOf_of_modeMask (op := 0b0101#4) (mode := false) h
    exact ⟨_, _, _, decode_op5_reg hop hmode, rfl, rfl, rfl⟩
  case effect =>
    obtain ⟨t, ht, hreg, hcc, hframe⟩ := exec_operate (i := .andReg dr sr1 sr2) (s := s) rfl
    exact ⟨t, ht, fun k _ => hreg ▸ BitVec.getLsbD_and, hcc, hframe⟩

/-- Settles O25: as register mode, the second operand's bits being those of the extended immediate. -/
theorem andImmediateStoresTheBitwiseAnd : Obligations.AndImmediateStoresTheBitwiseAnd := by
  refine ⟨fun w h => ?decoding, fun dr sr1 imm5 s => ?effect⟩
  case decoding =>
    obtain ⟨hop, hmode⟩ := opcodeOf_of_modeMask (op := 0b0101#4) (mode := true) h
    exact ⟨_, _, decode_op5_imm hop hmode, rfl, rfl⟩
  case effect =>
    obtain ⟨t, ht, hreg, hcc, hframe⟩ := exec_operate (i := .andImm dr sr1 imm5) (s := s) rfl
    refine ⟨t, ht, fun k hk => ?_, hcc, hframe⟩
    rw [hreg, ← getLsbD_sext16_imm5 imm5 hk]
    exact BitVec.getLsbD_and

/-- Settles O26: the complement bit by bit and under the signed view. -/
theorem notStoresTheComplement : Obligations.NotStoresTheComplement := by
  refine ⟨fun w h => ⟨_, _, decode_op9 (opcodeOf_of_opcodeMask (op := 0b1001#4) h), rfl, rfl⟩, fun dr sr s => ?_⟩
  obtain ⟨t, ht, hreg, hcc, hframe⟩ := exec_operate (i := .not dr sr) (s := s) rfl
  refine ⟨t, ht, fun k hk => ?bits, hreg ▸ toInt_not (s.reg sr), hcc, hframe⟩
  case bits =>
    rw [hreg, not16, BitVector.invert_eq, BitVec.getLsbD_not, decide_eq_true hk, Bool.true_and]

/-! ## Where the condition codes come from -/

/-- The definers are the operate instructions (R19). -/
theorem operateResult_of_defines (h : i.defines = some dr) (s : State) : ∃ v, operateResult s i = some (dr, v) := by
  cases i with
  | addReg | addImm | andReg | andImm | not => cases h; exact ⟨_, rfl⟩
  | _ => cases h

/-- A definer leaves in `CC` the class of what it leaves in its register. -/
theorem Effect.cc_of_defines (h : Effect s i t) (hd : i.defines = some dr) : t.cc = ccOf (t.reg dr).toInt := by
  obtain ⟨v, hv⟩ := operateResult_of_defines hd s
  obtain rfl : t = define dr v s := h.unique (.operate hv)
  rw [define_cc, define_reg_same]

/-- Settles O33: the setter by its class and its frame, the instructions by their effect on `CC`. -/
theorem conditionCodesComeOnlyFromTheSetter : Obligations.ConditionCodesComeOnlyFromTheSetter := by
  refine ⟨fun a s => ⟨ccDescribes_ccOf a, fun _ => rfl, fun _ => rfl, rfl, rfl, rfl, rfl⟩, fun w _ => ccOf_toInt w,
    fun i s t h => ?instruction⟩
  case instruction =>
    have he : Effect s i t := exec_eq_next_iff.mp h
    refine ⟨fun dr => he.cc_of_defines, fun hnone => by_contra fun hne => ?_⟩
    obtain ⟨dr, hd⟩ := he.defines_of_cc_ne hne
    cases hnone.symm.trans hd

end Sys2Proof.Machine
end

section
/-! PROOFS. LD and ST (44_load_store.md): in range each is one write, of the register or of the cell; out of range both
end the run in the same way, by an address error that changes nothing else. -/

namespace Sys2Proof.Machine

variable {i : Instr} {s : State} {e : Error}

/-- What LD and ST have in common out of range: an instruction whose effect is a fatal error changes `RUN` alone
(R175). -/
theorem Effect.abort_frame (h : Effect s i (raise e s)) :
    ∃ t, exec i s = .next t ∧ t.run = .aborted e ∧
      SameRegs s t ∧ SameMem s t ∧ t.cc = s.cc ∧ t.pc = s.pc ∧ t.ir = s.ir ∧ t.out = s.out :=
  ⟨raise e s, h.exec_eq, raise_run e s, raise_reg e s, fun _ => rfl, raise_cc e s, raise_pc e s, raise_ir e s,
    raise_out e s⟩

/-- Settles O27: in range the effect is one register write, out of range the address error. -/
theorem loadCopiesTheAddressedCellOrAborts : Obligations.LoadCopiesTheAddressedCellOrAborts := by
  refine ⟨fun w h => ?decoding, fun dr off9 s h => ?inRange, fun dr off9 s h => (Effect.loadError h).abort_frame⟩
  case decoding => exact ⟨_, decode_op2 (opcodeOf_of_opcodeMask (op := 0b0010#4) h), rfl⟩
  case inRange =>
    exact ⟨_, (Effect.load h).exec_eq, s.reg_setReg_same dr _, fun _ hne => s.reg_setReg_other hne _, fun _ => rfl,
      rfl, rfl, rfl, rfl, rfl⟩

/-- Settles O28: in range the effect is one memory write, out of range the address error. -/
theorem storeWritesOnlyTheAddressedCellOrAborts : Obligations.StoreWritesOnlyTheAddressedCellOrAborts := by
  refine ⟨fun w h => ?decoding, fun sr off9 s h => ?inRange, fun sr off9 s h => (Effect.storeError h).abort_frame⟩
  case decoding => exact ⟨_, decode_op3 (opcodeOf_of_opcodeMask (op := 0b0011#4) h), rfl⟩
  case inRange =>
    exact ⟨_, (Effect.store h).exec_eq, s.mem.read_write_same _ _, fun _ hne => s.mem.read_write_other hne _,
      fun _ => rfl, rfl, rfl, rfl, rfl, rfl⟩

end Sys2Proof.Machine
end

section
/-! PROOFS. TRAP (45_trap.md): the vector alone tells the services apart, each service is one write of the state, and
HALT is the only way to halt. -/

namespace Sys2Proof.Machine

open Sys2Proof.Machine.BitVector (field lowByte)

variable {i : Instr} {s t : State}

/-! ## The vector under a mask -/

theorem and_lowByteMask_eq_iff {w : Word} {vect8 : BitVec 8} :
    w &&& 0x00FF#16 = 0#8 ++ vect8 ↔ field w 0 8 = vect8 := by
  have hp : ∀ v : BitVec 8, (0#8 ++ v) &&& 0x00FF#16 = 0#8 ++ v := by decide
  refine (and_mask_eq_pattern_iff (fields := [(0, 8)]) (by decide) (hp vect8)).trans ?_
  simp [AgreeOn, field, BitVec.extractLsb'_append_eq_of_add_le, BitVec.extractLsb'_eq_self, -Nat.reduceAdd]

/-! ## The services -/

/-- The code that OUT appends, as a number (R161). -/
theorem toNat_lowByte (v : Word) : (lowByte v).toNat = v.toNat % 256 := toNat_field_zero v 8

/-- Settles O29: the effect is one append to `OUT`. -/
theorem outAppendsTheLowByteOfRegisterZero : Obligations.OutAppendsTheLowByteOfRegisterZero :=
  ⟨fun _ h => (decode_eq_iff (i := .trapOut) rfl).mpr h, fun s =>
    ⟨s.emit (lowByte (s.reg 0)), _, Effect.out.exec_eq, s.emit_out _, toNat_lowByte (s.reg 0), s.emit_reg _,
      fun _ => rfl, s.emit_cc _, s.emit_pc _, s.emit_ir _, s.emit_run _⟩⟩

/-- Whatever the state, HALT alone halts a machine that is not halted: the other reports are aborts (R162). -/
theorem Effect.trapHalt_of_halted (h : Effect s i t) (hs : s.run ≠ .halted) (ht : t.run = .halted) : i = .trapHalt := by
  have hne : t.run ≠ s.run := fun he => hs (he.symm.trans ht)
  rcases h.report_of_run_ne hne with ⟨hi, -⟩ | ⟨_, _, ⟨-, hab⟩ | ⟨-, hab⟩, -⟩ | ⟨-, hab⟩
  · exact hi
  all_goals cases hab.symm.trans ht

/-- Settles O30: the effect is one write of `RUN`, after which the machine is in a terminal state. -/
theorem haltEndsTheRunAndChangesNothingElse : Obligations.HaltEndsTheRunAndChangesNothingElse := by
  refine ⟨fun w h => (decode_eq_iff (i := .trapHalt) rfl).mpr h, fun s => ?effect, fun i s t h => ?onlyHalt⟩
  case effect =>
    have hfrozen (k : Nat) : Sys2Proof.core.run k (s.setRun .halted) = .next (s.setRun .halted) :=
      terminalStatesAreFrozen k _ (by rw [State.setRun_run]; nofun)
    exact ⟨s.setRun .halted, Effect.halt.exec_eq, s.setRun_run _, s.setRun_reg _, fun _ => rfl, s.setRun_cc _,
      s.setRun_pc _, s.setRun_ir _, s.setRun_out _, hfrozen⟩
  case onlyHalt => exact (exec_eq_next_iff.mp h).trapHalt_of_halted

/-- Settles O31: under opcode 15 the decoder looks at the vector, and neither service has this one. -/
theorem otherTrapVectorsDoNothing : Obligations.OtherTrapVectorsDoNothing := by
  refine ⟨fun w hop hout hhalt => ?decoding, fun _ _ => Effect.noService.exec_eq⟩
  case decoding =>
    have hwf : (Instr.trapOther (field w 0 8)).wf = true :=
      trapOther_wf_iff.mpr ⟨mt and_lowByteMask_eq_iff.mpr hout, mt and_lowByteMask_eq_iff.mpr hhalt⟩
    rw [decode_op15 (opcodeOf_of_opcodeMask (op := 0b1111#4) hop)]
    exact decodeTrap_eq_trapOther_iff.mpr ⟨hwf, rfl⟩

end Sys2Proof.Machine
end

section
/-! PROOFS. The fatal errors of a run (60_exceptions.md): a handler that aborts is `raise` and nothing else
(`Effect.eq_raise_of_aborted`), so what an aborted state holds is what the fetch and the advance left. -/

namespace Sys2Proof.Machine

open Sys2Proof.Machine.BitVector (field)

variable {i : Instr} {s t : State} {e : Error} {op : BitVec 4}

/-- From a state not already aborted so, a handler that ends in `aborted e` has raised `e` and changed nothing else
(R175). -/
theorem Effect.eq_raise_of_aborted (h : Effect s i t) (hs : s.run ≠ .aborted e) (ht : t.run = .aborted e) :
    t = raise e s := by
  cases h with
  | loadError | storeError | illegal =>
    cases ht
    rfl
  | halt => cases ht
  | _ => exact absurd ht hs

/-! ## Illegal opcodes (R173) -/

/-- The source names the legal opcodes, the model the illegal ones; together they are all sixteen. -/
theorem mem_illegalOpcodes_of_not_legal (h : op ∉ ([0, 1, 2, 3, 5, 9, 15] : List (BitVec 4))) :
    op ∈ illegalOpcodes := by
  decide +revert

theorem opcode_mem_illegalOpcodes : ∀ i ∈ [Instr.illegal4, .illegal6, .illegal7, .illegal8, .illegal10, .illegal11,
    .illegal12, .illegal13, .illegal14], i.opcode ∈ illegalOpcodes := by
  decide

/-- The cycle of a word with an illegal opcode: fetch, advance, abort. -/
theorem step_of_illegal (hr : s.run = .running) (hp : s.pc.toNat < 50)
    (hop : field (s.mem.read s.pc.toNat) 12 4 ∈ illegalOpcodes) :
    step s = .next (raise (.illegalOpcode (field (s.mem.read s.pc.toNat) 12 4) (s.pc + 1))
      ((s.setIr (s.mem.read s.pc.toNat)).setPc (s.pc + 1))) := by
  rw [← decode_opcode] at hop ⊢
  exact (step_of_fetch hr hp).trans (Effect.illegal hop).exec_eq

/-- Settles O32: the handler and the cycle are one `raise`, after which the machine is in a terminal state; the
converse is the ways in which an instruction aborts. -/
theorem illegalOpcodesAbortWithOpcodeAndAdvancedPc : Obligations.IllegalOpcodesAbortWithOpcodeAndAdvancedPc := by
  refine ⟨fun i hi s => (Effect.illegal (opcode_mem_illegalOpcodes i hi)).abort_frame, fun s hr hp hop => ?cycle,
    fun i s t op pcv h hr ht => ?onlyIllegal⟩
  case cycle =>
    have hpc := toNat_advanced_pc hp
    refine ⟨_, step_of_illegal hr hp (mem_illegalOpcodes_of_not_legal hop), raise_run _ _, raise_pc _ _, ?_, ?_,
      raise_ir _ _, fun k => terminalStatesAreFrozen k _ (by rw [raise_run]; nofun)⟩
    · rw [raise_pc, State.setPc_pc]; omega
    · rw [raise_pc, State.setPc_pc]; omega
  case onlyIllegal =>
    rcases ((exec_eq_next_iff.mp h).aborted_iff hr).mp ht with ⟨hop, he⟩ | ⟨_, _, -, -, he⟩ | ⟨_, _, -, -, he⟩ <;>
      cases he
    exact ⟨rfl, hop, rfl⟩

/-! ## What an aborted state holds (R176) -/

/-- Settles O41: the report says which way the cycle ended, and the aborted state is `raise` of the state before or
after the fetch and the advance. -/
theorem abortedStateHoldsWhatTheTableSays : Obligations.AbortedStateHoldsWhatTheTableSays := by
  intro s t e hr h ht
  rcases Nat.lt_or_ge s.pc.toNat 50 with hp | hp
  · have he := exec_eq_next_iff.mp ((step_of_fetch hr hp).symm.trans h)
    have hreport := (he.aborted_iff hr).mp ht
    obtain rfl := he.eq_raise_of_aborted (by simp [hr]) ht
    refine ⟨raise_reg e _, fun _ => rfl, raise_cc e _, raise_out e _, .inr ?_⟩
    rcases hreport with ⟨-, rfl⟩ | ⟨_, _, -, -, rfl⟩ | ⟨_, _, -, -, rfl⟩
    · exact .inl ⟨_, _, rfl, rfl, rfl, rfl⟩
    · exact .inr ⟨.ld, _, .inl rfl, rfl, rfl, rfl⟩
    · exact .inr ⟨.st, _, .inr rfl, rfl, rfl, rfl⟩
  · cases (step_of_fetch_error hr hp).symm.trans h
    cases ht
    exact ⟨raise_reg _ s, fun _ => rfl, raise_cc _ s, raise_out _ s, .inl ⟨s.pc, rfl, raise_pc _ s, rfl, raise_ir _ s⟩⟩

end Sys2Proof.Machine
end

section
/-! PROOFS. The statements about construction, the program load and what the host reads (70_reset_and_hazards.md): the
memory array is the same data as its 50 cells, and a load of text is the load of the words of its strings. -/

namespace Sys2Proof.Machine

variable {m m' : Memory} {s t : State} {l l' : Lifecycle} {ws : List Word} {lines : List String} {n : Nat}

/-! ## The memory array and its cells -/

/-- In canonical form a cell is listed exactly where it differs from what an unlisted address reads as (R23). -/
theorem Memory.mem_iff_read (h : m.wf) {c : Cell} :
    c ∈ m ↔ m.read c.1 = c.2 ∧ c.2 ≠ Memory.unlisted c.1 := by
  obtain ⟨hsorted, hcells⟩ := h
  constructor
  · intro hc
    refine ⟨?_, (hcells c hc).2⟩
    clear hcells
    induction m with
    | nil => cases hc
    | cons d m ih =>
      obtain ⟨hfirst, hrest⟩ := List.pairwise_cons.mp hsorted
      rw [Memory.read_cons]
      rcases List.mem_cons.mp hc with rfl | hc
      · exact if_pos rfl
      · rw [if_neg (hfirst c hc).ne', ih hrest hc]
  · rintro ⟨hread, hne⟩
    clear hsorted hcells
    induction m with
    | nil => exact absurd hread.symm hne
    | cons d m ih =>
      rw [Memory.read_cons] at hread
      split at hread
      · next heq => exact List.mem_cons.mpr (.inl (Prod.ext heq hread.symm))
      · exact List.mem_cons_of_mem d (ih hread)

/-- A memory in canonical form reads as unlisted outside the 50 cells (R30). -/
theorem Memory.read_of_memSize_le (h : m.wf) {a : Nat} (ha : Config.memSize ≤ a) : m.read a = Memory.unlisted a := by
  by_contra hne
  have hlisted : (a, m.read a) ∈ m := (Memory.mem_iff_read h).mpr ⟨rfl, hne⟩
  exact absurd (h.2 _ hlisted).1 (Nat.not_lt.mpr ha)

/-- The 50 cells determine a memory in canonical form: it is one sorted list of what differs. -/
theorem Memory.eq_of_read_eq (h : m.wf) (h' : m'.wf) (hread : ∀ a, a < Config.memSize → m.read a = m'.read a) :
    m = m' := by
  have hall : ∀ a, m.read a = m'.read a := fun a => by
    rcases Nat.lt_or_ge a Config.memSize with ha | ha
    · exact hread a ha
    · rw [Memory.read_of_memSize_le h ha, Memory.read_of_memSize_le h' ha]
  have hmem : ∀ c, c ∈ m ↔ c ∈ m' := fun c => by rw [Memory.mem_iff_read h, Memory.mem_iff_read h', hall]
  have nodup {m : Memory} (h : m.wf) : m.Nodup := h.1.imp fun hlt heq => absurd (congrArg Prod.fst heq) hlt.ne
  have hperm : m.Perm m' := (List.perm_ext_iff_of_nodup (nodup h) (nodup h')).mpr hmem
  exact hperm.eq_of_pairwise (fun _ _ _ _ hlt hgt => absurd hgt hlt.asymm) h.1 h'.1

/-! ## Construction (R191) -/

theorem Memory.mem_ofCells {f : Nat → Word} {c : Cell} :
    c ∈ Memory.ofCells f ↔ c.1 < Config.memSize ∧ f c.1 = c.2 ∧ c.2 ≠ Memory.unlisted c.1 := by
  simp only [Memory.ofCells, List.mem_filterMap, List.mem_range, Option.ite_none_left_eq_some, Option.some_inj]
  constructor
  · rintro ⟨a, ha, hne, rfl⟩
    exact ⟨ha, rfl, hne⟩
  · rintro ⟨ha, hf, hne⟩
    exact ⟨c.1, ha, hf ▸ hne, Prod.ext rfl hf⟩

theorem Memory.wf_ofCells (f : Nat → Word) : (Memory.ofCells f).wf := by
  refine ⟨List.pairwise_lt_range.filterMap _ fun a b hab c hc d hd => ?_, fun c hc => ?_⟩
  · obtain ⟨-, hc⟩ := Option.ite_none_left_eq_some.mp hc
    obtain ⟨-, hd⟩ := Option.ite_none_left_eq_some.mp hd
    cases hc
    cases hd
    exact hab
  · obtain ⟨ha, -, hne⟩ := Memory.mem_ofCells.mp hc
    exact ⟨ha, hne⟩

/-- An array given cell by cell reads as given. -/
theorem Memory.read_ofCells (f : Nat → Word) {a : Nat} (ha : a < Config.memSize) : (Memory.ofCells f).read a = f a := by
  have hwf := Memory.wf_ofCells f
  by_cases hf : f a = Memory.unlisted a
  · by_contra hne
    have hlisted := (Memory.mem_iff_read hwf (c := (a, _))).mpr ⟨rfl, hf ▸ hne⟩
    exact hne (Memory.mem_ofCells.mp hlisted).2.1.symm
  · have hlisted : (a, f a) ∈ Memory.ofCells f := Memory.mem_ofCells.mpr ⟨ha, rfl, hf⟩
    exact ((Memory.mem_iff_read hwf).mp hlisted).1

/-- Settles O47: the fields by evaluation, memory by the laws of the array given cell by cell. -/
theorem constructionGivesTheListedValuesAndTheInvariant :
    Obligations.ConstructionGivesTheListedValuesAndTheInvariant := by
  refine ⟨fun ccReset memReset => ⟨?registers, rfl, rfl, rfl, fun a => Memory.read_ofCells memReset, rfl, rfl, ?inv⟩,
    ?defaults⟩
  case registers => exact (by decide : ∀ i : RegIdx, (State.reset.reg i).toNat = i.val)
  case inv =>
    exact ⟨Memory.wf_ofCells memReset, .inl rfl, .inl (Nat.zero_le 305), endRecord_of_running rfl⟩
  case defaults =>
    have hmem : Memory.ofCells Config.memReset = [] :=
      Memory.eq_of_read_eq (Memory.wf_ofCells _) Memory.wf_nil fun _ => Memory.read_ofCells Config.memReset
    rw [State.constructed, hmem]
    rfl

/-! ## The load of words (R192, R194) -/

theorem countError_zero : countError 0 = some .empty := rfl

theorem countError_tooLong (h : 50 ≤ n) : countError n = some (.tooLong n) := by
  rw [countError, if_neg (by omega), if_pos (show Config.loadMax < n from h)]

theorem loadWords_constructed (h : 1 ≤ ws.length) (h' : ws.length ≤ 49) (s : State) :
    loadWords ws (.constructed s) = .done (.loaded (s.withProgram ws)) := by
  simp only [loadWords, countError_none.mpr ⟨h, h'⟩]

theorem loadWords_of_countError {reason : LoadReason} (h : countError ws.length = some reason) (s : State) :
    loadWords ws (.constructed s) = .failed (.loadError reason) := by
  simp only [loadWords, h]

/-- A load of words is done exactly for 1 to 49 words on a constructed machine, and gives the loaded one. -/
theorem loadWords_eq_done_iff : loadWords ws l = .done l' ↔
    ∃ s, l = .constructed s ∧ 1 ≤ ws.length ∧ ws.length ≤ 49 ∧ l' = .loaded (s.withProgram ws) := by
  constructor
  · intro h
    rcases loadWords_cases ws l with ⟨s, rfl, h1, h2, hl⟩ | ⟨_, _, -, -, hl⟩ | ⟨-, hl⟩
    · cases hl.symm.trans h
      exact ⟨s, rfl, h1, h2, rfl⟩
    · cases hl.symm.trans h
    · cases hl.symm.trans h
  · rintro ⟨s, rfl, h1, h2, rfl⟩
    exact loadWords_constructed h1 h2 s

theorem State.read_withProgram (s : State) {i : Nat} (h : i < ws.length) : (s.withProgram ws).mem.read i = ws[i] := by
  simpa using Memory.read_writeFrom ws 0 s.mem h

theorem State.read_withProgram_other (s : State) {a : Nat} (h : ws.length ≤ a) :
    (s.withProgram ws).mem.read a = s.mem.read a :=
  Memory.read_writeFrom_other ws 0 s.mem (.inr (by omega))

/-- The longest program ends before the last cell (R194). -/
theorem loadWords_leaves_last_cell (h : 1 ≤ ws.length) (h' : ws.length ≤ 49) (s : State) :
    ∃ t, loadWords ws (.constructed s) = .done (.loaded t) ∧ t.mem.read 49 = s.mem.read 49 :=
  ⟨_, loadWords_constructed h h' s, s.read_withProgram_other h'⟩

/-- Settles O50: a load that is done is one write of the words from cell 0 on. -/
theorem loadWritesWordsInOrderFromZero : Obligations.LoadWritesWordsInOrderFromZero := by
  intro ws l l' h
  obtain ⟨s, rfl, -, -, rfl⟩ := loadWords_eq_done_iff.mp h
  exact ⟨fun i => s.read_withProgram, fun a => s.read_withProgram_other, fun _ => rfl, rfl, rfl, rfl, rfl, rfl⟩

/-! ## The load of text (R193 to R195) -/

/-- Strings that are all words have words. -/
theorem exists_words (h : ∀ line ∈ lines, (parseWord line).isSome) :
    ∃ ws : List Word, lines.map parseWord = ws.map some := by
  refine ⟨lines.filterMap parseWord, ?_⟩
  rw [List.map_filterMap_some_eq_filter_map_isSome, eq_comm, List.filter_eq_self]
  exact List.forall_mem_map.mpr h

theorem length_eq_of_words (h : lines.map parseWord = ws.map some) : lines.length = ws.length := by
  simpa using congrArg List.length h

/-- Behind strings that are all words, the parser goes on with the rest at its index. -/
theorem parseWords_append (h : lines.map parseWord = ws.map some) (k : Nat) (rest : List String) :
    parseWords k (lines ++ rest) = (parseWords (k + lines.length) rest).map (ws ++ ·) := by
  induction lines generalizing k ws with
  | nil =>
    obtain rfl : ws = [] := by simpa using h.symm
    cases hrest : parseWords k rest <;> simp [hrest, Except.map]
  | cons line lines ih =>
    obtain ⟨w, ws, rfl⟩ : ∃ w ws', ws = w :: ws' := by
      cases ws with
      | nil => cases h
      | cons w ws => exact ⟨w, ws, rfl⟩
    obtain ⟨hw, hws⟩ := List.cons.inj h
    rw [List.cons_append, parseWords, hw, ih hws, List.length_cons, Nat.add_right_comm, ← Nat.add_assoc]
    cases parseWords (k + lines.length + 1) rest <;> rfl

theorem parseWords_of_words (h : lines.map parseWord = ws.map some) (k : Nat) : parseWords k lines = .ok ws := by
  simpa [parseWords, Except.map] using parseWords_append h k []

/-- The load of strings that are all words is the load of those words, in every phase. -/
theorem loadText_of_words (h : lines.map parseWord = ws.map some) (l : Lifecycle) :
    loadText lines l = loadWords ws l := by
  cases l with
  | constructed s =>
    rw [loadText, parseWords_of_words h, length_eq_of_words h]
    cases hc : countError ws.length with
    | none => rfl
    | some reason => exact (loadWords_of_countError hc s).symm
  | loaded s => rfl
  | started s => rfl

theorem loadText_of_countError {reason : LoadReason} (h : countError lines.length = some reason) (s : State) :
    loadText lines (.constructed s) = .failed (.loadError reason) := by
  simp only [loadText, h]

/-- A first offending string fails the load with its index (R171). -/
theorem loadText_of_badWord {before after : List String} {line : String}
    (hlen : before.length + 1 + after.length ≤ 49) (hbefore : ∀ l ∈ before, (parseWord l).isSome)
    (hline : parseWord line = none) (s : State) :
    loadText (before ++ line :: after) (.constructed s) = .failed (.loadError (.badWord before.length)) := by
  obtain ⟨ws, hws⟩ := exists_words hbefore
  have hcount : countError (before ++ line :: after).length = none := by
    rw [countError_none, List.length_append, List.length_cons]
    omega
  have hparse : parseWords 0 (before ++ line :: after) = .error (.badWord before.length) := by
    rw [parseWords_append hws, parseWords, hline, Nat.zero_add]
    rfl
  simp only [loadText, hcount, hparse]

/-- Settles O51: the count decides, and 49 words end before cell 49. -/
theorem loadAcceptsOneToFortyNineWords : Obligations.LoadAcceptsOneToFortyNineWords := by
  refine ⟨fun ws s => ⟨fun h => ?_, fun h => loadWords_of_countError (countError_tooLong h) s,
      fun h1 h2 => loadWords_leaves_last_cell h1 h2 s⟩,
    fun lines s => ⟨fun h => ?_, fun h => loadText_of_countError (countError_tooLong h) s, fun h1 h2 hwords => ?_⟩⟩
  · exact loadWords_of_countError (by rw [h, countError_zero]) s
  · exact loadText_of_countError (by rw [h, countError_zero]) s
  · obtain ⟨ws, hws⟩ := exists_words hwords
    rw [length_eq_of_words hws] at h1 h2
    rw [loadText_of_words hws]
    exact loadWords_leaves_last_cell h1 h2 s

/-! ## The characters of a program string -/

theorem isWhitespace_iff {c : Char} : isWhitespace c = true ↔ c.toNat ∈ [0x20, 0x09, 0x0A, 0x0D, 0x0B, 0x0C] :=
  List.contains_iff_mem

/-- Cleaning removes every copy of the six characters and no copy of another (R193). -/
theorem count_cleaned (line : String) (c : Char) : (cleaned line).count c =
    if c.toNat ∈ [0x20, 0x09, 0x0A, 0x0D, 0x0B, 0x0C] then 0 else line.toList.count c := by
  rw [cleaned]
  simp only [← isWhitespace_iff]
  split
  · next hc => exact List.count_eq_zero.mpr fun hmem => by simp [hc] at hmem
  · next hc => exact List.count_filter (by simpa using hc)

/-- A literal is the pattern whose bits are its binary digits (R72). -/
theorem BitVector.fromLiteral_eq_some_iff {w : Nat} (hw : w ≠ 0) {cs : List Char} {v : BitVec w} :
    BitVector.fromLiteral w cs = some v ↔
      cs.length = w ∧ (∀ c ∈ cs, c = '0' ∨ c = '1') ∧ BitVector.bits v = cs.map (fun c => c == '1') := by
  have hdigits : BitVector.fromLiteral w cs ≠ none ↔ cs.length = w ∧ ∀ c ∈ cs, c = '0' ∨ c = '1' := by
    rw [Ne, BitVector.fromLiteral_eq_none_iff]
    simp [hw, or_iff_not_imp_left]
  constructor
  · intro h
    obtain ⟨hlen, hbin⟩ := hdigits.mp (by rw [h]; nofun)
    exact ⟨hlen, hbin, BitVector.bits_of_fromLiteral h⟩
  · rintro ⟨hlen, hbin, hbits⟩
    obtain ⟨u, hu⟩ := Option.ne_none_iff_exists'.mp (hdigits.mpr ⟨hlen, hbin⟩)
    rw [hu, BitVector.eq_of_bits_eq ((BitVector.bits_of_fromLiteral hu).trans hbits.symm)]

/-- Settles O52: the cleaning is a filter, a word is a literal of 16 digits, and the parser stops at the first string
that is none. -/
theorem textLoadIsTheWordLoadOfItsDigits : Obligations.TextLoadIsTheWordLoadOfItsDigits :=
  ⟨fun line => ⟨List.filter_sublist, count_cleaned line⟩,
    fun _ _ => BitVector.fromLiteral_eq_some_iff (by decide),
    fun _ _ l h => loadText_of_words h l,
    fun _ _ _ s hlen hbefore hline => loadText_of_badWord hlen hbefore hline s⟩

/-! ## The launch state (R196) -/

/-- A program that one load accepts keeps the invariant of a running machine: it writes memory only, in the 50 cells. -/
theorem State.Inv.withProgram {ccReset : CondCode} (h : s.Inv ccReset) (hr : s.run = .running) (hlen : ws.length ≤ 49) :
    (s.withProgram ws).Inv ccReset where
  memory := Memory.wf_writeFrom ws 0 h.memory (by omega)
  flags := h.flags
  counter := h.counter
  record := endRecord_of_running hr

/-- Settles O53: the launch state is the constructed one with the program in its first cells. -/
theorem launchStateMeetsTheInvariant : Obligations.LaunchStateMeetsTheInvariant := by
  obtain ⟨hconstructed, hdefaults⟩ := constructionGivesTheListedValuesAndTheInvariant
  refine ⟨fun ccReset memReset ws l h => ?_, fun lines ws h => ?_⟩
  · obtain ⟨s, hs, -, hlen, rfl⟩ := loadWords_eq_done_iff.mp h
    cases hs
    obtain ⟨hregs, hpc, hir, hcc, hcells, hrun, hout, hinv⟩ := hconstructed ccReset memReset
    exact ⟨_, rfl, hinv.withProgram hrun hlen, hrun, hpc, hir, hcc, hout, hregs, fun i => State.read_withProgram _,
      fun a ha ha50 => (State.read_withProgram_other _ ha).trans (hcells a ha50)⟩
  · rw [hdefaults]
    exact loadText_of_words h _

/-! ## The lifecycle (R190, R199) -/

theorem loadWords_eq_notOffered_iff : loadWords ws l = .notOffered ↔ ∀ s, l ≠ .constructed s := by
  rcases loadWords_cases ws l with ⟨s, rfl, -, -, hl⟩ | ⟨s, _, rfl, -, hl⟩ | ⟨hl', hl⟩
  · simp [hl]
  · simp [hl]
  · simp [hl, hl']

theorem loadText_eq_notOffered_iff : loadText lines l = .notOffered ↔ ∀ s, l ≠ .constructed s := by
  rcases loadText_cases lines l with ⟨s, _, rfl, hl⟩ | ⟨s, ws, -, -, hl⟩ | ⟨hl', hl⟩
  · simp [hl]
  · rw [hl, loadWords_eq_notOffered_iff]
  · simp [hl, hl']

/-- A load of text that is done gives the loaded machine. -/
theorem loadText_eq_done (h : loadText lines l = .done l') : ∃ t, l' = .loaded t := by
  rcases loadText_cases lines l with ⟨_, _, -, hl⟩ | ⟨s, ws, -, -, hl⟩ | ⟨-, hl⟩
  · cases hl.symm.trans h
  · obtain ⟨s, -, -, -, ht⟩ := loadWords_eq_done_iff.mp (hl.symm.trans h)
    exact ⟨_, ht⟩
  · cases hl.symm.trans h

theorem reportOf_state (t : State) : (reportOf t).state = some t := by
  unfold reportOf
  split <;> rfl

/-- The execution entry on a machine with a program: `n` steps of its state, those after its end changing nothing. -/
theorem execute_of_loaded (hl : ∀ s, l ≠ .constructed s) (h : Sys2Proof.core.run n l.state = .next t) :
    execute n l = some (.started t) := by
  rcases execute_cases n l with ⟨s, rfl, -⟩ | ⟨-, he⟩
  · exact absurd rfl (hl s)
  · rw [he, runFor_eq_reportOf h, reportOf_state, Option.map_some]

theorem execute_eq_none_iff : execute n l = none ↔ ∃ s, l = .constructed s := by
  by_cases hl : ∃ s, l = .constructed s
  · obtain ⟨s, rfl⟩ := hl
    exact ⟨fun _ => ⟨s, rfl⟩, fun _ => rfl⟩
  · obtain ⟨t, ht⟩ := core_run_eq_next n l.state
    rw [execute_of_loaded (not_exists.mp hl) ht]
    exact ⟨nofun, fun h => absurd h hl⟩

/-- Settles O57: what is offered is the cases of the loads and of the execution entry, which reports on the state its
bound of steps reaches. -/
theorem loadAndRunAreOfferedOnceInOrder : Obligations.LoadAndRunAreOfferedOnceInOrder := by
  refine ⟨fun _ _ => loadWords_eq_notOffered_iff, fun _ _ => loadText_eq_notOffered_iff, fun ws l l' h => ?wordsDone,
    fun _ _ _ => loadText_eq_done, fun _ _ => execute_eq_none_iff, fun n l l' h => ?run, fun n t hr => ?ended⟩
  case wordsDone =>
    obtain ⟨s, -, -, -, ht⟩ := loadWords_eq_done_iff.mp h
    exact ⟨_, ht⟩
  case run =>
    have hl : ∀ s, l ≠ .constructed s := fun s hs => nomatch (execute_eq_none_iff.mpr ⟨s, hs⟩).symm.trans h
    obtain ⟨t, ht⟩ := core_run_eq_next n l.state
    cases (execute_of_loaded hl ht).symm.trans h
    exact ⟨n, t, rfl, le_rfl, ht, fun _ => rfl⟩
  case ended => exact execute_of_loaded nofun (terminalStatesAreFrozen n t hr)

/-! ## The accessors (R198) -/

/-- Equal observations show equal registers, equal cells and equal fields, and the cells are the memory. -/
theorem eq_of_observe_eq (hs : s.mem.wf) (ht : t.mem.wf) (h : observe s = observe t) : s = t := by
  obtain ⟨hx, hcells, hpc, hir, hcc, hrun, hout⟩ := Observation.mk.inj h
  have hmem : s.mem = t.mem := Memory.eq_of_read_eq hs ht fun a ha =>
    List.map_inj_left.mp hcells a (List.mem_range.mpr ha)
  cases s
  cases t
  exact (State.mk.injEq ..).mpr ⟨Vector.toList_inj.mp hx, hpc, hir, hcc, hmem, hrun, hout⟩

/-- Settles O54: each accessor by what it lists, the rest by `eq_of_observe_eq`. -/
theorem observationDeterminesTheState : Obligations.ObservationDeterminesTheState := by
  refine ⟨fun s => ⟨?_, fun i => ?_, ?_, fun a ha => ?_, rfl, rfl, rfl, rfl, rfl⟩, fun s t => eq_of_observe_eq⟩
  · simp [observe]
  · simp [observe, State.reg]
  · simp [observe, Config.memSize]
  · simp [observe, Config.memSize, ha]

end Sys2Proof.Machine
end
